-- ==== Sys2Proof/Word.lean ====
section
/-!
DEFINITION. The word types of the core (spec/00_scope.md R6 and section 5). Every value of this hardware is
unsigned (R7), so a value is a bit vector of the width the spec gives it, read as a number with `toNat`.
-/

namespace Sys2Proof

/-- A memory cell, a general register, a timer or a Byte operand: 8 bits (R6, R62). -/
abbrev Byte := BitVec 8

/-- An opcode, PC, I or a stack slot: 16 bits (R6). -/
abbrev Word := BitVec 16

/-- An Address operand: 12 bits, `nnn` (R62). -/
abbrev Address := BitVec 12

/-- A Register operand: 4 bits, naming one of `V[0]` to `V[15]` (R62, R69). -/
abbrev RegNum := BitVec 4

end Sys2Proof
end

