-- ==== Sys2Proof/Config.lean ====
section
/-!
DEFINITION. What is fixed for one instance of the core: the sizes of spec/00_scope.md R6 as named constants
(spec/93_implementation_defined.md U9 asks for names, log entry 22), the two parameters the source leaves open
(R65 and R105, log entries 1 and 2), and the free values of the decoder's ports on a miss (R79, log entry 13).
-/

namespace Sys2Proof

/-- `MEM_SIZE`: 4096 cells, addresses 0x000 to 0xFFF (R6, R20). -/
abbrev Config.memSize : Nat := 4096

/-- `PC_RESET`: PC at creation (R6, R21). -/
abbrev Config.pcReset : Nat := 0x200

/-- `PC_CEILING`: the largest PC a bounded increment commits (R6, R104). -/
abbrev Config.pcCeiling : Nat := 0xFFF

/-- `STACK_DEPTH`: 16 return-address slots (R6, R25). -/
abbrev Config.stackDepth : Nat := 16

/-- `NUM_V`: 16 general registers (R6, R23). -/
abbrev Config.numV : Nat := 16

/-- What a memory address that no entry lists reads as: the value every cell holds at creation (R20). -/
abbrev Config.unlistedByte : Byte := 0

/-- The two values of `SE_VX_VY_MASK` (R65, decision D4, conflict C3). -/
inductive SeVxVyMask where
  /-- 0xF000, the default: the low nibble of a `5xyn` word is ignored. -/
  | leadingDigit
  /-- 0xF00F: only `5xy0` decodes as SE_VX_VY. -/
  | leadingDigitAndLowNibble
  deriving DecidableEq, Repr

/-- The three values of `SKIP_OVERFLOW_POLICY` (R105, decision D6, conflict C9). -/
inductive SkipOverflowPolicy where
  /-- `ON_SKIP_ONLY`, the default: the bounded increment is called only when the condition holds. -/
  | onSkipOnly
  /-- `ZERO_DELTA_ON_NO_SKIP`: the bounded increment is called with delta 0 when the condition fails. -/
  | zeroDeltaOnNoSkip
  /-- `CHECK_ALWAYS`: PC + 2 is checked whether or not the condition holds. -/
  | checkAlways
  deriving DecidableEq, Repr

/-- The parameters of one instance of the core. They are fixed for the instance and do not change at reset
(spec/70_reset_and_hazards.md R240); the machine carries them in `State.params` and no operation writes them. -/
structure Params where
  seVxVyMask : SeVxVyMask
  skipOverflowPolicy : SkipOverflowPolicy
  deriving DecidableEq, Repr

/-- DESIGN CHOICE of the spec (unsafe, log entries 1 and 2): the defaults of decisions D4 and D6. -/
def Params.default : Params where
  seVxVyMask := .leadingDigit
  skipOverflowPolicy := .onSkipOnly

/-- FREE VALUE (safe, log entry 13): the decoder's `id` port on a miss. R79 calls it "meaningful only when `hit` = 1". -/
opaque Config.missId : Word → BitVec 3

/-- FREE VALUE (safe, log entry 13): the decoder's `arg0` port on a miss, for which R79's equations give no value. -/
opaque Config.missArg0 : Word → BitVec 12

end Sys2Proof
end

