-- ==== Sys2Proof/Catalog.lean ====
section
/-!
DEFINITION. The types of the Instruction Table and of a call of the dispatch multiplexer
(spec/30_encoding.md R61, R62; spec/40_dispatch.md R101). The table's data stand in Decode.lean.
-/

namespace Sys2Proof

/-- The closed enumeration of eight instruction identities, in the order of R2 and R65. -/
inductive Identity where
  | cls | ret | jmpAddr | callAddr | seVxByte | sneVxByte | seVxVy | ldVxByte
  deriving DecidableEq, Repr

/-- The three semantic kinds of operand (R62). -/
inductive OperandKind where
  | address | register | byte
  deriving DecidableEq, Repr

/-- The width in bits of each kind (R62). -/
def OperandKind.width : OperandKind → Nat
  | .address => 12
  | .register => 4
  | .byte => 8

/-- A parameter descriptor: the kind, and the mask and right shift that isolate the operand (R62). -/
structure Descriptor where
  kind : OperandKind
  mask : Word
  shift : Nat
  deriving DecidableEq, Repr

/-- A catalog entry (R61). -/
structure CatalogEntry where
  identity : Identity
  mask : Word
  pattern : Word
  descriptors : List Descriptor
  deriving DecidableEq, Repr

/-- The operand kinds of each identity, in order (R101). -/
def Identity.kinds : Identity → List OperandKind
  | .cls => []
  | .ret => []
  | .jmpAddr => [.address]
  | .callAddr => [.address]
  | .seVxByte => [.register, .byte]
  | .sneVxByte => [.register, .byte]
  | .seVxVy => [.register, .register]
  | .ldVxByte => [.register, .byte]

/-- The exact number of operands of each identity (R101). -/
def Identity.arity (id : Identity) : Nat := id.kinds.length

/-- What `execute` is called with: an identity and a list of operands, which may be ill-formed (R100, R102, R103). -/
structure Call where
  identity : Identity
  operands : List Nat
  deriving DecidableEq, Repr

end Sys2Proof
end

