-- ==== Sys2Proof/Syntax.lean ====
section
/-!
DEFINITION. The instructions: one constructor for each row of spec/opcode_table.json, each operand a bit vector of
its kind's width (spec/40_dispatch.md R101, R103: "In hardware the operand ports are exactly that wide").
-/

namespace Sys2Proof

/-- The eight instructions (spec/00_scope.md R2). The low nibble `n` of a `5xyn` word does not reach the core
(spec/42_conditional_skips.md R142), so `seVxVy` does not carry it. -/
inductive Instr where
  /-- CLS (R120). -/
  | cls
  /-- RET (R121). -/
  | ret
  /-- JMP_ADDR addr (R122). -/
  | jmpAddr (addr : Address)
  /-- CALL_ADDR addr (R123). -/
  | callAddr (addr : Address)
  /-- SE_VX_BYTE Vx, kk (R140). -/
  | seVxByte (x : RegNum) (kk : Byte)
  /-- SNE_VX_BYTE Vx, kk (R141). -/
  | sneVxByte (x : RegNum) (kk : Byte)
  /-- SE_VX_VY Vx, Vy (R142). -/
  | seVxVy (x : RegNum) (y : RegNum)
  /-- LD_VX_BYTE Vx, kk (R160). -/
  | ldVxByte (x : RegNum) (kk : Byte)
  deriving DecidableEq, Repr

/-- The identity of an instruction. -/
def Instr.identity : Instr → Identity
  | .cls => .cls
  | .ret => .ret
  | .jmpAddr _ => .jmpAddr
  | .callAddr _ => .callAddr
  | .seVxByte _ _ => .seVxByte
  | .sneVxByte _ _ => .sneVxByte
  | .seVxVy _ _ => .seVxVy
  | .ldVxByte _ _ => .ldVxByte

/-- The operands of an instruction in descriptor order, zero-extended as numbers (R68, R69). -/
def Instr.operands : Instr → List Nat
  | .cls => []
  | .ret => []
  | .jmpAddr addr => [addr.toNat]
  | .callAddr addr => [addr.toNat]
  | .seVxByte x kk => [x.toNat, kk.toNat]
  | .sneVxByte x kk => [x.toNat, kk.toNat]
  | .seVxVy x y => [x.toNat, y.toNat]
  | .ldVxByte x kk => [x.toNat, kk.toNat]

/-- The call of `execute` that an instruction stands for. -/
def Instr.call (i : Instr) : Call where
  identity := i.identity
  operands := i.operands

end Sys2Proof
end

