-- ==== Sys2Proof/WellFormed.lean ====
section
/-!
DEFINITION. The well-formedness checks of the spec: of a parameter descriptor (spec/30_encoding.md R63), of a catalog
entry and of the table (R65, R74), of a decoder input held in a wider type (R72), and of a call of `execute`
(spec/40_dispatch.md R102, R103). An `Instr` meets its check by construction, since its operands have their kinds'
widths (Laws/WellFormed.lean).
-/

namespace Sys2Proof

/-- R63: `mask >> shift` is the all-ones value of the kind's width, and `mask` has no bit below `shift`. -/
def Descriptor.wellFormed (d : Descriptor) : Bool :=
  (d.mask.toNat >>> d.shift == 2 ^ d.kind.width - 1) && (d.mask.toNat % 2 ^ d.shift == 0)

/-- R65: every descriptor meets R63 and is disjoint from the entry's mask, the pattern lies under the mask, and the
descriptors have the identity's operand kinds in order. -/
def CatalogEntry.wellFormed (e : CatalogEntry) : Bool :=
  e.descriptors.all (fun d => d.wellFormed && d.mask &&& e.mask == 0)
    && e.pattern &&& e.mask == e.pattern
    && e.descriptors.map Descriptor.kind == e.identity.kinds

/-- Two entries overlap when some word can match both: their patterns agree where both masks look (R74). -/
def CatalogEntry.overlaps (e f : CatalogEntry) : Bool :=
  e.pattern &&& f.mask == f.pattern &&& e.mask

/-- R72: a decoder input held as a natural number must be a 16-bit value. -/
def decoderInputOk (n : Nat) : Bool := n ≤ 0xFFFF

/-- R102: as many operands as the identity's arity. -/
def Call.arityOk (c : Call) : Bool := c.operands.length == c.identity.arity

/-- R103: each operand lies within the width of its kind. -/
def Call.operandsInWidth (c : Call) : Bool :=
  (c.identity.kinds.zip c.operands).all (fun p => p.2 < 2 ^ p.1.width)

/-- A call that `execute` gives a meaning to (R102, R103). -/
def Call.wellFormed (c : Call) : Bool := c.arityOk && c.operandsInWidth

/-- An instruction is well-formed when the call it stands for is. -/
def Instr.wellFormed (i : Instr) : Bool := i.call.wellFormed

end Sys2Proof
end

