-- ==== Sys2Proof/Decode.lean ====
section
/-!
DEFINITION. The Instruction Table, the Decoder and the encoder (spec/30_encoding.md R64 to R70, R72, R77, R78).
The table's masks, patterns and field positions are the classic CHIP-8 ones the spec decided on (PRESUMED by the spec,
decisions D1 to D4; unsafe, log entries 1, 3, 4 and 5).
-/

namespace Sys2Proof

/-! ## The Instruction Table -/

/-- `ADDR`: `nnn` = w[11:0] (R64). -/
def addrDescriptor : Descriptor := ⟨.address, 0x0FFF, 0⟩

/-- `REG_X`: `x` = w[11:8] (R64). -/
def regXDescriptor : Descriptor := ⟨.register, 0x0F00, 8⟩

/-- `REG_Y`: `y` = w[7:4] (R64). -/
def regYDescriptor : Descriptor := ⟨.register, 0x00F0, 4⟩

/-- `BYTE`: `kk` = w[7:0] (R64). -/
def byteDescriptor : Descriptor := ⟨.byte, 0x00FF, 0⟩

/-- The value of `SE_VX_VY_MASK` (R65, decision D4). -/
def SeVxVyMask.value : SeVxVyMask → Word
  | .leadingDigit => 0xF000
  | .leadingDigitAndLowNibble => 0xF00F

/-- The entry of each identity: the rows of R65's table. -/
def catalogEntry (m : SeVxVyMask) : Identity → CatalogEntry
  | .cls       => ⟨.cls,       0xFFFF,  0x00E0, []⟩
  | .ret       => ⟨.ret,       0xFFFF,  0x00EE, []⟩
  | .jmpAddr   => ⟨.jmpAddr,   0xF000,  0x1000, [addrDescriptor]⟩
  | .callAddr  => ⟨.callAddr,  0xF000,  0x2000, [addrDescriptor]⟩
  | .seVxByte  => ⟨.seVxByte,  0xF000,  0x3000, [regXDescriptor, byteDescriptor]⟩
  | .sneVxByte => ⟨.sneVxByte, 0xF000,  0x4000, [regXDescriptor, byteDescriptor]⟩
  | .seVxVy    => ⟨.seVxVy,    m.value, 0x5000, [regXDescriptor, regYDescriptor]⟩
  | .ldVxByte  => ⟨.ldVxByte,  0xF000,  0x6000, [regXDescriptor, byteDescriptor]⟩

/-- The identities in declaration order (R65, decision D3). -/
def Identity.all : List Identity :=
  [.cls, .ret, .jmpAddr, .callAddr, .seVxByte, .sneVxByte, .seVxVy, .ldVxByte]

/-- The Instruction Table: eight entries in declaration order (R65). -/
def instructionTable (m : SeVxVyMask) : List CatalogEntry := Identity.all.map (catalogEntry m)

/-- The 3-bit identity code: the index of the entry in R65's table (R78, decision D9). -/
def Identity.code : Identity → BitVec 3
  | .cls => 0
  | .ret => 1
  | .jmpAddr => 2
  | .callAddr => 3
  | .seVxByte => 4
  | .sneVxByte => 5
  | .seVxVy => 6
  | .ldVxByte => 7

/-- The identity a 3-bit code names; every code names one (R78). -/
def Identity.ofCode (c : BitVec 3) : Identity :=
  match c.toNat with
  | 0 => .cls
  | 1 => .ret
  | 2 => .jmpAddr
  | 3 => .callAddr
  | 4 => .seVxByte
  | 5 => .sneVxByte
  | 6 => .seVxVy
  | _ => .ldVxByte

/-! ## The Decoder -/

/-- R67: entry `e` matches word `w` exactly when `(w & e.mask) == e.pattern`. -/
def CatalogEntry.hits (e : CatalogEntry) (w : Word) : Bool := w &&& e.mask == e.pattern

/-- R68: the operand a descriptor isolates, `(w & d.mask) >> d.shift`, as an unsigned number (R69). -/
def Descriptor.extract (d : Descriptor) (w : Word) : Nat := ((w &&& d.mask) >>> d.shift).toNat

/-- R66 to R68: the first matching entry's identity with one operand per descriptor; none where no entry matches. -/
def decodeCall (m : SeVxVyMask) (w : Word) : Option Call :=
  ((instructionTable m).find? (·.hits w)).map
    fun e => ⟨e.identity, e.descriptors.map (·.extract w)⟩

/-- The instruction a well-formed call stands for; none for a wrong operand count (R102) or an operand above its
kind's width (R103). -/
def Instr.ofCall (c : Call) : Option Instr :=
  if c.wellFormed then
    match c.identity, c.operands with
    | .cls, [] => some .cls
    | .ret, [] => some .ret
    | .jmpAddr, [a] => some (.jmpAddr (BitVec.ofNat 12 a))
    | .callAddr, [a] => some (.callAddr (BitVec.ofNat 12 a))
    | .seVxByte, [x, kk] => some (.seVxByte (BitVec.ofNat 4 x) (BitVec.ofNat 8 kk))
    | .sneVxByte, [x, kk] => some (.sneVxByte (BitVec.ofNat 4 x) (BitVec.ofNat 8 kk))
    | .seVxVy, [x, y] => some (.seVxVy (BitVec.ofNat 4 x) (BitVec.ofNat 4 y))
    | .ldVxByte, [x, kk] => some (.ldVxByte (BitVec.ofNat 4 x) (BitVec.ofNat 8 kk))
    | _, _ => none
  else none

/-- `decode(w)` with the operands at their kinds' widths; none is the DECODE error (R68, R70). It reads no machine
state, only the instance's mask parameter (R71). -/
def decodeWord (m : SeVxVyMask) (w : Word) : Option Instr := (decodeCall m w).bind Instr.ofCall

/-- Why bytes or a number do not decode. -/
inductive DecodeError where
  /-- No entry matches the word (R70): the DECODE error, carrying the opcode. -/
  | unrecognizedOpcode (opcode : Word)
  /-- Fewer than the two bytes of an opcode are there (R60). -/
  | truncated (present : Nat)
  /-- A decoder input above 0xFFFF, which a model with a wider input type refuses (R72). -/
  | inputTooWide (input : Nat)
  deriving DecidableEq, Repr

/-- The opcode of two consecutive bytes, `(hi << 8) | lo` (spec/20_memory.md R41). -/
def composeOpcode (hi lo : Byte) : Word := (hi.setWidth 16 <<< 8) ||| lo.setWidth 16

/-- The byte at the lower address, `w[15:8]` (R41). -/
def highByte (w : Word) : Byte := (w >>> 8).setWidth 8

/-- The byte at the higher address, `w[7:0]` (R41). -/
def lowByte (w : Word) : Byte := w.setWidth 8

/-- The decoder on any bytes: the first opcode's instruction and the bytes after it, or a named error. -/
def decodeBytes (m : SeVxVyMask) : List Byte → Except DecodeError (Instr × List Byte)
  | hi :: lo :: rest =>
    match decodeWord m (composeOpcode hi lo) with
    | some i => .ok (i, rest)
    | none => .error (.unrecognizedOpcode (composeOpcode hi lo))
  | short => .error (.truncated short.length)

/-- The decoder on an input held as a natural number: refused above 0xFFFF, neither decoded nor DECODE (R72). -/
def decodeNat (m : SeVxVyMask) (n : Nat) : Except DecodeError Instr :=
  if decoderInputOk n then
    match decodeWord m (BitVec.ofNat 16 n) with
    | some i => .ok i
    | none => .error (.unrecognizedOpcode (BitVec.ofNat 16 n))
  else .error (.inputTooWide n)

/-! ## The encoder -/

/-- The pattern with each operand shifted into its field (R77). -/
def placeOperands : List Descriptor → List Nat → Word → Word
  | d :: ds, v :: vs, w => placeOperands ds vs (w ||| BitVec.ofNat 16 v <<< d.shift)
  | _, _, w => w

/-- `enc(id, v)` (R77). It does not depend on the mask parameter: the pattern of SE_VX_VY has `n` = 0, so its word
decodes under both values (DEDUCED by the spec, log entry 24). -/
def encode (i : Instr) : Word :=
  let e := catalogEntry Params.default.seVxVyMask i.identity
  placeOperands e.descriptors i.operands e.pattern

/-- The two bytes of an encoded instruction as memory holds them, the high byte first (R41). -/
def encodeBytes (i : Instr) : List Byte := [highByte (encode i), lowByte (encode i)]

/-! ## The decoder as the host asks for it -/

/-- The number made of the lowest `nbits` bits of `w`: an instruction word whose bits above `nbits` are zero. -/
def tableWord (nbits w : Nat) : Nat := w % 2 ^ nbits

/-- The instruction this decoder reads from a table word at the default parameters: the word is laid out as memory
holds it, high byte first (R41), and a number above 0xFFFF is refused (R72). -/
def decodeTableWord (nbits w : Nat) : Option Instr :=
  if decoderInputOk (tableWord nbits w) then
    match decodeBytes Params.default.seVxVyMask
        [highByte (BitVec.ofNat 16 (tableWord nbits w)), lowByte (BitVec.ofNat 16 (tableWord nbits w))] with
    | .ok (i, _) => some i
    | .error _ => none
  else none

end Sys2Proof
end

