-- ==== Sys2Proof/Machine/State.lean ====
section
/-!
DEFINITION. The machine state (spec/10_state.md R20 to R28), the reasons a step can stop
(spec/60_exceptions.md R200), and the state after reset (spec/70_reset_and_hazards.md R240).
-/

namespace Sys2Proof.Machine

/-- Memory as a list of the cells that differ from `Config.unlistedByte`, addresses strictly rising
(`Memory.wf` in Ops.lean); every other address below `Config.memSize` holds `Config.unlistedByte`. -/
abbrev Memory := List Host.Cell

/-- An output of the core to the outside. -/
inductive OutputEvent where
  /-- One call of the display capability's clear-screen operation (spec/41_control_flow.md R120; 60_exceptions.md R208). -/
  | clearScreen
  deriving DecidableEq, Repr

/-- The state. The first eight fields are the machine state, which R28 lists in full; `outputs` and `params` are the
model's own fields. -/
structure State where
  /-- `M`: 4096 cells of 8 bits (R20). -/
  mem : Memory
  /-- `PC`: the address of the next opcode to fetch (R21). -/
  pc : Word
  /-- `V[0]` to `V[15]` (R23). -/
  v : Vector Byte Config.numV
  /-- `I`, which no instruction reads or writes (R24). -/
  i : Word
  /-- `STACK[0]` to `STACK[15]` (R25). -/
  stack : Vector Word Config.stackDepth
  /-- `SP + 1`, one of the two renderings R26 names: 0 is the empty stack (SP = -1), 16 the full one (SP = 15). -/
  depth : Fin (Config.stackDepth + 1)
  /-- `DT`, the delay timer (R27). -/
  dt : Byte
  /-- `ST`, the sound timer (R27). -/
  st : Byte
  /-- The output events so far, oldest first (R120; log entry 11). -/
  outputs : List OutputEvent
  /-- The instance's parameters, which nothing changes (R240; log entries 1 and 2). -/
  params : Params
  deriving DecidableEq, Repr

/-- `SP` as the spec writes it: an integer in -1 to 15 (R26). -/
def State.sp (s : State) : Int := (s.depth.val : Int) - 1

/-- The machine right after creation or reset (R240). `i`, `stack`, `dt` and `st` rest on the spec's decision D8
(DESIGN CHOICE, unsafe, log entry 9), `params` on D4 and D6 (log entries 1 and 2). -/
def State.reset : State where
  mem := []
  pc := BitVec.ofNat 16 Config.pcReset
  v := Vector.replicate Config.numV 0
  i := 0
  stack := Vector.replicate Config.stackDepth 0
  depth := 0
  dt := 0
  st := 0
  outputs := []
  params := Params.default

/-- The six error kinds of R200, each with its payload and with `after`, the state the error leaves, which is an
ordinary state on which `next` may be called again (R204). All are errors the spec describes, so stopping on them is
safe (decision D15; log entry 7). -/
inductive Fault where
  /-- Code 1, raised by the decoder inside `next`: no entry matches `opcode` (R70). Safe. -/
  | decode (opcode : Word) (after : State)
  /-- Code 2, raised by a direct `execute` whose operand count is not the identity's arity (R102). Safe. -/
  | arity (identity : Identity) (expected actual : Nat) (after : State)
  /-- Code 3, raised by RET at SP = -1 (R121). Safe. -/
  | emptyStack (after : State)
  /-- Code 4, raised by CALL_ADDR at SP = 15 (R123). Safe. -/
  | fullStack (after : State)
  /-- Code 5, raised by the three skips when the bounded increment would pass the ceiling (R104, R105). Safe. -/
  | pcOverflow (pc : Word) (delta : Nat) (after : State)
  /-- Code 6, raised by `readOpcode` at PC > 0xFFE (R43). Safe: the spec's own answer to an open question (D5). -/
  | fetchOob (pc : Word) (after : State)
  deriving DecidableEq, Repr

/-- Calls to which the spec gives no result and no error. No step ever refuses. -/
inductive Refusal where
  /-- An arm of `exec` without a meaning; none is left. Safe. -/
  | notModelled (mnemonic : String)
  /-- A direct `execute` with an operand above its kind's width (spec/40_dispatch.md R103; D12). Safe. -/
  | operandOutOfRange (call : Call)
  /-- A host write of a value outside the element's width or domain (spec/10_state.md R31; D14). Safe. -/
  | hostWriteOutOfDomain (value : Int)
  /-- A host load of an image that does not fit between its address and the top of memory (R31, R40; D14). Safe. -/
  | imageOutsideMemory (address length : Nat)
  deriving DecidableEq, Repr

/-- The outcome of an operation of this core. -/
abbrev Result := Host.Outcome State Fault Refusal

end Sys2Proof.Machine
end

