-- ==== Sys2Proof/Machine/Ops.lean ====
section
/-!
DEFINITION. The shared operations over memory, PC, registers, the return stack and the output log, raising an error,
the bounded increment (spec/40_dispatch.md R104) and the fetch (R106).
-/

namespace Sys2Proof.Machine

/-! ## Memory (spec/10_state.md R20, spec/20_memory.md R40) -/

/-- The byte at an address: what the list holds for it, else `Config.unlistedByte`. -/
def Memory.byteAt : Memory → Nat → Byte
  | [], _ => Config.unlistedByte
  | (k, b) :: m, a => if k = a then b else Memory.byteAt m a

/-- Store a byte, keeping the addresses rising and listing no entry equal to `Config.unlistedByte`. Only the host
stores (R46). -/
def Memory.put : Memory → Nat → Byte → Memory
  | [], a, b => if b = Config.unlistedByte then [] else [(a, b)]
  | (k, c) :: m, a, b =>
    if a < k then
      if b = Config.unlistedByte then (k, c) :: m else (a, b) :: (k, c) :: m
    else if a = k then
      if b = Config.unlistedByte then m else (a, b) :: m
    else (k, c) :: Memory.put m a b

/-- The canonical form from address `lo` on: addresses at least `lo`, strictly rising and below `Config.memSize`, and
no entry equal to `Config.unlistedByte`. -/
def Memory.wfFrom : Nat → Memory → Bool
  | _, [] => true
  | lo, (k, b) :: m =>
    decide (lo ≤ k) && decide (k < Config.memSize) && (b != Config.unlistedByte) && Memory.wfFrom (k + 1) m

/-- The canonical form of memory. -/
def Memory.wf (m : Memory) : Bool := Memory.wfFrom 0 m

/-- One byte of the state's memory, `M[a]`. -/
def State.byteAt (s : State) (a : Nat) : Byte := Memory.byteAt s.mem a

/-- The host's store of one byte (`MemWrite`, 00_scope.md section 5). -/
def State.putByte (s : State) (a : Nat) (b : Byte) : State := { s with mem := Memory.put s.mem a b }

/-! ## PC, registers, timers, outputs -/

/-- `PC <- target`. -/
def State.setPc (s : State) (target : Word) : State := { s with pc := target }

/-- `V[x]`; every 4-bit register number names a register (R23, R69). -/
def State.readV (s : State) (x : RegNum) : Byte := s.v[x.toNat]'(x.isLt)

/-- `V[x] <- b`. -/
def State.writeV (s : State) (x : RegNum) (b : Byte) : State := { s with v := s.v.set x.toNat b x.isLt }

/-- One output event. -/
def State.emit (s : State) (e : OutputEvent) : State := { s with outputs := s.outputs ++ [e] }

/-! ## The return stack (spec/10_state.md R25, R26) -/

/-- `STACK[k]`. -/
def State.slot (s : State) (k : Fin Config.stackDepth) : Word := s.stack[k.val]'(k.isLt)

/-- `STACK[k] <- w`. -/
def State.setSlot (s : State) (k : Fin Config.stackDepth) (w : Word) : State :=
  { s with stack := s.stack.set k.val w k.isLt }

/-- `SP <- d - 1`. -/
def State.setDepth (s : State) (d : Fin (Config.stackDepth + 1)) : State := { s with depth := d }

/-- The slot SP names, the most recent return address; none on the empty stack (R26). -/
def State.topSlot (s : State) : Option (Fin Config.stackDepth) :=
  match s.depth with
  | ⟨0, _⟩ => none
  | ⟨k + 1, h⟩ => some ⟨k, Nat.lt_of_succ_lt_succ h⟩

/-- The slot a push writes, SP + 1; none on the full stack (R26). -/
def State.freeSlot (s : State) : Option (Fin Config.stackDepth) :=
  if h : s.depth.val < Config.stackDepth then some ⟨s.depth.val, h⟩ else none

/-- RET's pop from slot `k` = SP (spec/41_control_flow.md R121): PC takes the slot as it stands, the slot is zeroed,
SP goes down by one. -/
def State.popInto (s : State) (k : Fin Config.stackDepth) : State :=
  ((s.setPc (s.slot k)).setSlot k 0).setDepth k.castSucc

/-- CALL_ADDR's push to slot `k` = SP + 1 and jump (R123): SP goes up by one, the slot takes PC, PC takes the target. -/
def State.pushAndJump (s : State) (k : Fin Config.stackDepth) (target : Word) : State :=
  ((s.setSlot k s.pc).setDepth k.succ).setPc target

/-! ## Errors (spec/60_exceptions.md R200 to R204) -/

/-- Raise an error: the operation ends at once and returns the error to its caller. It saves nothing, changes no mode
and transfers no control (R203); `s` is the state it leaves. -/
def raise (f : State → Fault) (s : State) : Result := .fault (f s)

/-- The state an error leaves (R201), on which the host may call `next` again (R204): the hardware has no
return-from-trap, and this is all that continuing after an error takes. -/
def Fault.after : Fault → State
  | .decode _ s => s
  | .arity _ _ _ s => s
  | .emptyStack s => s
  | .fullStack s => s
  | .pcOverflow _ _ s => s
  | .fetchOob _ s => s

/-- The error code (R200, decision D10). -/
def Fault.code : Fault → BitVec 3
  | .decode _ _ => 1
  | .arity _ _ _ _ => 2
  | .emptyStack _ => 3
  | .fullStack _ => 4
  | .pcOverflow _ _ _ => 5
  | .fetchOob _ _ => 6

/-- The error payload `err_info` (R200, decision D10). R200 gives no value to the bits outside a kind's fields and no
payload to the two stack errors: all those bits are 0 here (DESIGN CHOICE of the model, unsafe, log entry 12). -/
def Fault.info : Fault → BitVec 32
  | .decode w _ => w.setWidth 32
  | .arity id expected actual _ =>
    id.code.setWidth 32 ||| (BitVec.ofNat 2 expected).setWidth 32 <<< 4 ||| (BitVec.ofNat 8 actual).setWidth 32 <<< 8
  | .emptyStack _ => 0
  | .fullStack _ => 0
  | .pcOverflow pc delta _ => pc.setWidth 32 ||| (BitVec.ofNat 4 delta).setWidth 32 <<< 16
  | .fetchOob pc _ => pc.setWidth 32

/-! ## The bounded increment (spec/40_dispatch.md R104) -/

/-- `PC + delta` as an unbounded integer, without a 16-bit wrap (R104). -/
def State.advanced (s : State) (delta : Nat) : Nat := s.pc.toNat + delta

/-- `BoundedAdvance(delta)`: PC_OVERFLOW with PC unmodified above the ceiling, else PC takes the sum. -/
def boundedAdvance (delta : Nat) (s : State) : Result :=
  if s.advanced delta > Config.pcCeiling then
    raise (.pcOverflow s.pc delta) s
  else .next (s.setPc (BitVec.ofNat 16 (s.advanced delta)))

/-- `SkipIf(cond)`: what a skip does under the instance's `SKIP_OVERFLOW_POLICY` (R105). -/
def skipIf (cond : Bool) (s : State) : Result :=
  match s.params.skipOverflowPolicy with
  | .onSkipOnly => if cond then boundedAdvance 2 s else .next s
  | .zeroDeltaOnNoSkip => boundedAdvance (if cond then 2 else 0) s
  | .checkAlways =>
    if s.advanced 2 > Config.pcCeiling then raise (.pcOverflow s.pc 2) s
    else if cond then .next (s.setPc (BitVec.ofNat 16 (s.advanced 2))) else .next s

/-! ## The fetch (spec/40_dispatch.md R106, spec/20_memory.md R41 to R44) -/

/-- The largest PC at which both bytes of an opcode are in memory: 0xFFE (R43). -/
def fetchLimit : Nat := Config.memSize - 2

/-- The opcode at PC, big-endian (R41); no alignment is asked for (R44). -/
def State.opcodeAtPc (s : State) : Word := composeOpcode (s.byteAt s.pc.toNat) (s.byteAt (s.pc.toNat + 1))

/-- `readOpcode()`: FETCH_OOB(PC) with PC unchanged above 0xFFE (R43), else the opcode and the state with PC + 2. -/
def readOpcode (s : State) : Except Fault (Word × State) :=
  if s.pc.toNat > fetchLimit then .error (.fetchOob s.pc s)
  else .ok (s.opcodeAtPc, s.setPc (BitVec.ofNat 16 (s.advanced 2)))

end Sys2Proof.Machine
end

