-- ==== Sys2Proof/Machine/Operands.lean ====
section
/-!
DEFINITION. The operand forms (spec/30_encoding.md R62, R69): Address, Register and Byte. There is no addressing mode,
no effective address and no base register (spec/43_load.md).
-/

namespace Sys2Proof.Machine

/-- An Address operand as the 16-bit value PC takes: `zext_16(addr)`, absolute, with no bounds, alignment or range
check (spec/41_control_flow.md R122, R123). -/
def addressValue (addr : Address) : Word := addr.setWidth 16

/-- A Register operand as the byte it names, `V[x]`. -/
def registerValue (x : RegNum) (s : State) : Byte := s.readV x

/-- A Byte operand is the immediate itself, stored and compared as given (R69). -/
def byteValue (kk : Byte) : Byte := kk

end Sys2Proof.Machine
end

