-- ==== Sys2Proof/Machine/ControlFlow.lean ====
section
/-!
DEFINITION. The control flow family: CLS, RET, JMP_ADDR, CALL_ADDR (spec/41_control_flow.md R120 to R123). "PC" is PC as
`execute` finds it, under `next` the instruction's address plus 2.
-/

namespace Sys2Proof.Machine

/-- CLS: exactly one clear-screen call; no machine state changes (R120). -/
def execCls (s : State) : Result := .next (s.emit .clearScreen)

/-- RET: EMPTY_STACK on the empty stack, else the pop of the slot SP names into PC (R121). -/
def execRet (s : State) : Result :=
  match s.topSlot with
  | none => raise .emptyStack s
  | some k => .next (s.popInto k)

/-- JMP_ADDR: PC takes the address (R122). -/
def execJmpAddr (addr : Address) (s : State) : Result := .next (s.setPc (addressValue addr))

/-- CALL_ADDR: FULL_STACK on the full stack, else PC is pushed and takes the address (R123). -/
def execCallAddr (addr : Address) (s : State) : Result :=
  match s.freeSlot with
  | none => raise .fullStack s
  | some k => .next (s.pushAndJump k (addressValue addr))

end Sys2Proof.Machine
end

