-- ==== Sys2Proof/Machine/Load.lean ====
section
/-!
DEFINITION. The load family: LD_VX_BYTE (spec/43_load.md R160), the only writer of a general register.
-/

namespace Sys2Proof.Machine

/-- LD_VX_BYTE: `V[x]` takes the byte; PC is not changed by the arm (R160). -/
def execLdVxByte (x : RegNum) (kk : Byte) (s : State) : Result := .next (s.writeV x (byteValue kk))

end Sys2Proof.Machine
end

