-- ==== Sys2Proof/Machine/Flags.lean ====
section
/-!
DEFINITION. The hardware has no status flags, condition codes or predicates: a skip's comparison is used at once and
not kept (spec/10_state.md R28). This file holds the three comparisons, 8-bit and unsigned (spec/00_scope.md R7).
-/

namespace Sys2Proof.Machine

/-- SE_VX_BYTE's condition, `V[x] == kk` (spec/42_conditional_skips.md R140). -/
def registerEqByte (x : RegNum) (kk : Byte) (s : State) : Bool := registerValue x s == byteValue kk

/-- SNE_VX_BYTE's condition, `V[x] != kk` (R141). -/
def registerNeByte (x : RegNum) (kk : Byte) (s : State) : Bool := registerValue x s != byteValue kk

/-- SE_VX_VY's condition, `V[x] == V[y]` (R142). -/
def registerEqRegister (x y : RegNum) (s : State) : Bool := registerValue x s == registerValue y s

end Sys2Proof.Machine
end

