-- ==== Sys2Proof/Machine/Skips.lean ====
section
/-!
DEFINITION. The conditional skip family: SE_VX_BYTE, SNE_VX_BYTE, SE_VX_VY (spec/42_conditional_skips.md R140 to R142).
-/

namespace Sys2Proof.Machine

/-- SE_VX_BYTE: skip if `V[x]` equals the byte (R140). -/
def execSeVxByte (x : RegNum) (kk : Byte) (s : State) : Result := skipIf (registerEqByte x kk s) s

/-- SNE_VX_BYTE: skip if `V[x]` differs from the byte (R141). -/
def execSneVxByte (x : RegNum) (kk : Byte) (s : State) : Result := skipIf (registerNeByte x kk s) s

/-- SE_VX_VY: skip if `V[x]` equals `V[y]` (R142). -/
def execSeVxVy (x y : RegNum) (s : State) : Result := skipIf (registerEqRegister x y s) s

end Sys2Proof.Machine
end

