-- ==== Sys2Proof/Machine/Dispatch.lean ====
section
/-!
DEFINITION. The dispatch multiplexer on a well-formed instruction: one arm per identity and no default arm
(spec/40_dispatch.md R100). The operand count and widths of a direct `execute` are checked in Execute.lean.
-/

namespace Sys2Proof.Machine

def exec (i : Instr) (s : State) : Host.Outcome State Fault Refusal :=
  match i with
  | .cls => Sys2Proof.Machine.execCls s
  | .ret => Sys2Proof.Machine.execRet s
  | .jmpAddr addr => Sys2Proof.Machine.execJmpAddr addr s
  | .callAddr addr => Sys2Proof.Machine.execCallAddr addr s
  | .seVxByte x kk => Sys2Proof.Machine.execSeVxByte x kk s
  | .sneVxByte x kk => Sys2Proof.Machine.execSneVxByte x kk s
  | .seVxVy x y => Sys2Proof.Machine.execSeVxVy x y s
  | .ldVxByte x kk => Sys2Proof.Machine.execLdVxByte x kk s

end Sys2Proof.Machine
end

