-- ==== Sys2Proof/Machine/Execute.lean ====
section
/-!
DEFINITION. The public operations `execute(identity, operands)` (spec/40_dispatch.md R100 to R103) and `next()`
(R107, R108).
-/

namespace Sys2Proof.Machine

/-- `execute` on any call: the arity check comes before any other action (R102), an operand above its kind's width is
refused, with no result and no error (R103), and else the identity's arm runs. -/
def execute (c : Call) (s : State) : Result :=
  if c.arityOk then
    match Instr.ofCall c with
    | some i => exec i s
    | none => .refused (.operandOutOfRange c)
  else raise (.arity c.identity c.identity.arity c.operands.length) s

/-- Decode a fetched opcode and execute it on the state the fetch left: DECODE(w) if no entry matches (R70). The
fetch's PC + 2 stays whatever follows (R108). -/
def decodeAndExecute (w : Word) (s : State) : Result :=
  match decodeWord s.params.seVxVyMask w with
  | some i => exec i s
  | none => raise (.decode w) s

/-- `next()`: fetch, decode, execute, in that order, stopping at the first error (R107). -/
def next (s : State) : Result :=
  match readOpcode s with
  | .error f => .fault f
  | .ok (w, s') => decodeAndExecute w s'

/-- The host positions PC at `Config.pcReset` where no opcode can be fetched at PC (R242; log entry 16). -/
def fetchable (s : State) : State :=
  if s.pc.toNat > fetchLimit then s.setPc (BitVec.ofNat 16 Config.pcReset) else s

/-- The host's store of an opcode at an address, high byte first (R41). -/
def putOpcode (s : State) (a : Nat) (w : Word) : State :=
  (s.putByte a (highByte w)).putByte (a + 1) (lowByte w)

/-- The host's store of an opcode where `next` fetches, PC being positioned first if it points outside memory. -/
def loadAtPc (s : State) (w : Word) : State := putOpcode (fetchable s) (fetchable s).pc.toNat w

end Sys2Proof.Machine
end

