-- ==== Sys2Proof/Machine/Step.lean ====
section
/-!
DEFINITION. One step of the machine, which is one call of `next()` (spec/40_dispatch.md R107).
-/

namespace Sys2Proof.Machine

/-- One step: fetch, decode and execute one opcode. -/
def step (s : State) : Host.Outcome State Fault Refusal := next s

/-- The state with a table word stored where `step` fetches its next instruction: two bytes at PC, high byte first. PC
itself changes only where it points outside memory (log entry 16). -/
def State.withFetchWord (s : State) (nbits w : Nat) : State := loadAtPc s (BitVec.ofNat 16 (tableWord nbits w))

end Sys2Proof.Machine
end

