-- ==== Sys2Proof/Machine/HostPort.lean ====
section
/-!
DEFINITION. What the host can do between operations: read and write every state element (spec/10_state.md R31), reset
(spec/70_reset_and_hazards.md R240), and request an operation through the controller's ports (spec/40_dispatch.md R112).
-/

namespace Sys2Proof.Machine

/-! ## The accessors (R31) -/

/-- The state elements of R28, which the host's accessors name. -/
inductive Element where
  | mem (a : Address)
  | pc
  | v (x : RegNum)
  | i
  | stack (k : Fin Config.stackDepth)
  | sp
  | dt
  | st
  deriving DecidableEq, Repr

/-- The width in bits of every element but SP. -/
def Element.width : Element → Nat
  | .mem _ => 8
  | .pc => 16
  | .v _ => 8
  | .i => 16
  | .stack _ => 16
  | .sp => 0
  | .dt => 8
  | .st => 8

/-- The least value an element may hold: -1 for SP, else 0 (R26, R31). -/
def Element.least : Element → Int
  | .mem _ => 0
  | .pc => 0
  | .v _ => 0
  | .i => 0
  | .stack _ => 0
  | .sp => -1
  | .dt => 0
  | .st => 0

/-- The greatest value an element may hold: 15 for SP, else the greatest unsigned value of its width (R26, R31). -/
def Element.greatest : Element → Int
  | .mem _ => 0xFF
  | .pc => 0xFFFF
  | .v _ => 0xFF
  | .i => 0xFFFF
  | .stack _ => 0xFFFF
  | .sp => 15
  | .dt => 0xFF
  | .st => 0xFF

/-- Whether a value lies in an element's domain (R31: "a host write must respect each element's width and domain"). -/
def Element.inDomain (e : Element) (value : Int) : Bool :=
  decide (e.least ≤ value) && decide (value ≤ e.greatest)

/-- The host's read of an element, as a number. -/
def hostRead (e : Element) (s : State) : Int :=
  match e with
  | .mem a => (s.byteAt a.toNat).toNat
  | .pc => s.pc.toNat
  | .v x => (s.readV x).toNat
  | .i => s.i.toNat
  | .stack k => (s.slot k).toNat
  | .sp => s.sp
  | .dt => s.dt.toNat
  | .st => s.st.toNat

/-- The store of a value in an element's domain. -/
def hostStore (e : Element) (value : Int) (s : State) : State :=
  match e with
  | .mem a => s.putByte a.toNat (BitVec.ofInt 8 value)
  | .pc => s.setPc (BitVec.ofInt 16 value)
  | .v x => s.writeV x (BitVec.ofInt 8 value)
  | .i => { s with i := BitVec.ofInt 16 value }
  | .stack k => s.setSlot k (BitVec.ofInt 16 value)
  | .sp => s.setDepth (Fin.ofNat (Config.stackDepth + 1) (value + 1).toNat)
  | .dt => { s with dt := BitVec.ofInt 8 value }
  | .st => { s with st := BitVec.ofInt 8 value }

/-- The host's write: a value in the element's domain is stored, any other is refused (R31; log entry 18). -/
def hostWrite (e : Element) (value : Int) (s : State) : Result :=
  if e.inDomain value then .next (hostStore e value s) else .refused (.hostWriteOutOfDomain value)

/-- Store consecutive bytes from an address on. -/
def storeBytes : Nat → List Byte → State → State
  | _, [], s => s
  | a, b :: bs, s => storeBytes (a + 1) bs (s.putByte a b)

/-- The host's program load (R242): refused where the image does not fit in memory (R40). -/
def loadImage (a : Nat) (bytes : List Byte) (s : State) : Result :=
  if a + bytes.length ≤ Config.memSize then .next (storeBytes a bytes s)
  else .refused (.imageOutsideMemory a bytes.length)

/-- The `reset` input: the machine state is created again (R240); the parameters are fixed for the instance, and reset
neither clears the display nor calls it, so the outputs so far stand. -/
def hostReset (s : State) : State := { State.reset with outputs := s.outputs, params := s.params }

/-! ## The controller's ports (R112) -/

/-- The request ports. -/
structure PortRequest where
  op : BitVec 2
  xId : BitVec 3
  xArgc : BitVec 2
  xArg0 : BitVec 12
  xArg1 : BitVec 8
  deriving DecidableEq, Repr

/-- The response ports. `opcodeOut` is there only after a `readOpcode` that returned an opcode (log entry 14). -/
structure PortResponse where
  done : Bool
  err : Bool
  errKind : BitVec 3
  errInfo : BitVec 32
  opcodeOut : Option Word
  clsReq : Bool
  deriving DecidableEq, Repr

/-- What a transaction gives: the response and the new state, or a refusal. -/
inductive Transaction where
  | answered (response : PortResponse) (after : State)
  | refused (reason : Refusal)
  deriving DecidableEq, Repr

/-- The call the `x_*` ports present: `x_argc` operands, of which ports exist for the first two. A count of 3 is never
an arity, so the third number is never read. -/
def PortRequest.call (r : PortRequest) : Call where
  identity := Identity.ofCode r.xId
  operands := [r.xArg0.toNat, r.xArg1.toNat, 0].take r.xArgc.toNat

/-- The response to an operation that ended in `result` from state `s`. -/
def respond (s : State) (result : Result) : Transaction :=
  match result with
  | .next s' => .answered ⟨true, false, 0, 0, none, s'.outputs.length != s.outputs.length⟩ s'
  | .fault f => .answered ⟨true, true, f.code, f.info, none, false⟩ f.after
  | .refused r => .refused r

/-- The response to a `readOpcode`. -/
def respondFetch (fetched : Except Fault (Word × State)) : Transaction :=
  match fetched with
  | .ok (w, s') => .answered ⟨true, false, 0, 0, some w, false⟩ s'
  | .error f => .answered ⟨true, true, f.code, f.info, none, false⟩ f.after

/-- One transaction of the controller: `op` 0 none, 1 `next`, 2 `execute`, 3 `readOpcode`. -/
def transact (r : PortRequest) (s : State) : Transaction :=
  match r.op.toNat with
  | 0 => .answered ⟨false, false, 0, 0, none, false⟩ s
  | 1 => respond s (next s)
  | 2 => respond s (execute r.call s)
  | _ => respondFetch (readOpcode s)

/-! ## A session of the host -/

/-- What the host can do between operations, and the operations it can call (R31, R112). -/
inductive HostAction where
  | next
  | execute (call : Call)
  | readOpcode
  | write (e : Element) (value : Int)
  | reset
  deriving DecidableEq, Repr

/-- The state an operation leaves: the next state, or the state its error leaves (R201, R204); none where the call was
refused. -/
def stateAfter : Result → Option State
  | .next s => some s
  | .fault f => some f.after
  | .refused _ => none

/-- The state after one action of the host; a refused call or write is no action and leaves the state as it was. -/
def hostAct (a : HostAction) (s : State) : State :=
  match a with
  | .next => (stateAfter (next s)).getD s
  | .execute c => (stateAfter (execute c s)).getD s
  | .readOpcode =>
    match readOpcode s with
    | .ok (_, s') => s'
    | .error f => f.after
  | .write e value => (stateAfter (hostWrite e value s)).getD s
  | .reset => hostReset s

/-- The state after a list of actions, the first one first. -/
def hostSession : List HostAction → State → State
  | [], s => s
  | a :: as, s => hostSession as (hostAct a s)

end Sys2Proof.Machine
end

