-- ==== Sys2Proof/Machine/Assembler.lean ====
section
/-!
DEFINITION. The spec's own assembler syntax (spec/30_encoding.md R80): the identity name, then the operands in
descriptor order separated by commas, and the `DW` data directive. Text is a list of characters; the letter case, the
single space and the fixed count of hex digits are the model's (DESIGN CHOICE, safe, log entry 19).
-/

namespace Sys2Proof.Machine

/-- A line of assembly: an instruction, or a raw word (`DW`). -/
inductive AsmLine where
  | instr (i : Instr)
  | word (w : Word)
  deriving DecidableEq, Repr

/-- The hex digits in order of value, capital: `V0` to `VF` (R80). -/
def hexAlphabet : List Char := "0123456789ABCDEF".toList

/-- The digit of a nibble. -/
def hexChar (n : BitVec 4) : Char := hexAlphabet[n.toNat]'(n.isLt)

/-- The value of a digit: its place in the alphabet. -/
def hexValue (c : Char) : Option Nat := hexAlphabet.idxOf? c

/-- The lowest `digits` hex digits of a number, the most significant first. -/
def hexDigits : Nat → Nat → List Char
  | 0, _ => []
  | digits + 1, n => hexDigits digits (n / 16) ++ [hexChar (BitVec.ofNat 4 n)]

/-- Read exactly `digits` hex digits onto the value so far. -/
def readHex : Nat → Nat → List Char → Option (Nat × List Char)
  | 0, soFar, text => some (soFar, text)
  | _ + 1, _, [] => none
  | digits + 1, soFar, c :: text =>
    match hexValue c with
    | some d => readHex digits (16 * soFar + d) text
    | none => none

/-- The identity names (R80). -/
def Identity.text : Identity → List Char
  | .cls => ['C', 'L', 'S']
  | .ret => ['R', 'E', 'T']
  | .jmpAddr => ['J', 'M', 'P', '_', 'A', 'D', 'D', 'R']
  | .callAddr => ['C', 'A', 'L', 'L', '_', 'A', 'D', 'D', 'R']
  | .seVxByte => ['S', 'E', '_', 'V', 'X', '_', 'B', 'Y', 'T', 'E']
  | .sneVxByte => ['S', 'N', 'E', '_', 'V', 'X', '_', 'B', 'Y', 'T', 'E']
  | .seVxVy => ['S', 'E', '_', 'V', 'X', '_', 'V', 'Y']
  | .ldVxByte => ['L', 'D', '_', 'V', 'X', '_', 'B', 'Y', 'T', 'E']

/-- What stands before the digits of an operand: `V` for a register, `0x` for an address or a byte (R80). -/
def OperandKind.lead : OperandKind → List Char
  | .register => ['V']
  | .address => ['0', 'x']
  | .byte => ['0', 'x']

/-- The count of hex digits of an operand (R62). -/
def OperandKind.digits : OperandKind → Nat
  | .register => 1
  | .address => 3
  | .byte => 2

/-- The operands, each after its separator: a space before the first, a comma and a space before each other one. -/
def operandsText : List Char → List OperandKind → List Nat → List Char
  | sep, k :: ks, v :: vs => sep ++ OperandKind.lead k ++ hexDigits (OperandKind.digits k) v ++ operandsText [',', ' '] ks vs
  | _, _, _ => []

/-- The text of a line (R80). -/
def AsmLine.text : AsmLine → List Char
  | .instr i => Identity.text i.identity ++ operandsText [' '] i.identity.kinds i.operands
  | .word w => ['D', 'W', ' ', '0', 'x'] ++ hexDigits 4 w.toNat

/-- Read a fixed text; none where the text does not begin with it. -/
def readFixed : List Char → List Char → Option (List Char)
  | [], text => some text
  | _ :: _, [] => none
  | f :: fixed, c :: text => if f = c then readFixed fixed text else none

/-- Read one operand of each kind, each after its separator. -/
def readOperands : List Char → List OperandKind → List Char → Option (List Nat × List Char)
  | _, [], text => some ([], text)
  | sep, k :: ks, text =>
    match readFixed (sep ++ OperandKind.lead k) text with
    | none => none
    | some text =>
      match readHex (OperandKind.digits k) 0 text with
      | none => none
      | some (v, text) =>
        match readOperands [',', ' '] ks text with
        | none => none
        | some (vs, text) => some (v :: vs, text)

/-- Read a whole line as an instruction of one identity. -/
def readAs (id : Identity) (text : List Char) : Option AsmLine :=
  match readFixed (Identity.text id) text with
  | none => none
  | some text =>
    match readOperands [' '] id.kinds text with
    | some (ops, []) => (Instr.ofCall ⟨id, ops⟩).map .instr
    | _ => none

/-- Read a whole line as a `DW` directive. -/
def readDw (text : List Char) : Option AsmLine :=
  match readFixed ['D', 'W', ' ', '0', 'x'] text with
  | none => none
  | some text =>
    match readHex 4 0 text with
    | some (v, []) => some (.word (BitVec.ofNat 16 v))
    | _ => none

/-- Read a whole line of assembly. -/
def readLine (text : List Char) : Option AsmLine :=
  match Identity.all.findSome? (readAs · text) with
  | some line => some line
  | none => readDw text

/-- The word a line stands for: the encoding of an instruction (R77), or the raw word (R80). -/
def AsmLine.encoding : AsmLine → Word
  | .instr i => encode i
  | .word w => w

/-- The bytes of a program, each word stored big-endian (R80, R41). -/
def assemble (lines : List AsmLine) : List Byte :=
  lines.flatMap fun line => [highByte line.encoding, lowByte line.encoding]

/-- The host loads an assembled program from an address on (R242). -/
def loadProgram (a : Nat) (lines : List AsmLine) (s : State) : Result := loadImage a (assemble lines) s

end Sys2Proof.Machine
end

