-- ==== Sys2Proof/Machine/DecoderPorts.lean ====
section
/-!
DEFINITION. The decoder as a combinational block: the ports and matcher equations of spec/30_encoding.md R79, written
from those equations and not from the table of Decode.lean.
-/

namespace Sys2Proof.Machine

/-- The decoder's output ports (R79). -/
structure DecoderPorts where
  hit : Bool
  id : BitVec 3
  argc : BitVec 2
  arg0 : BitVec 12
  arg1 : BitVec 8
  errOpcode : Word
  deriving DecidableEq, Repr

/-- `d1 = opcode[15:12]` (R79). -/
def leadingDigit (w : Word) : BitVec 4 := w.extractLsb' 12 4

/-- `x = opcode[11:8]`. -/
def fieldX (w : Word) : RegNum := w.extractLsb' 8 4

/-- `y = opcode[7:4]`. -/
def fieldY (w : Word) : RegNum := w.extractLsb' 4 4

/-- `kk = opcode[7:0]`. -/
def fieldByte (w : Word) : Byte := w.extractLsb' 0 8

/-- `nnn = opcode[11:0]`. -/
def fieldAddr (w : Word) : Address := w.extractLsb' 0 12

/-- `nz = (opcode[3:0] != 0)` (R79). -/
def lowNibbleNonzero (w : Word) : Bool := w.extractLsb' 0 4 != 0

/-- The matcher `m_*` of each identity (R79). -/
def matcher (m : SeVxVyMask) (w : Word) : Identity → Bool
  | .cls => w == 0x00E0
  | .ret => w == 0x00EE
  | .jmpAddr => leadingDigit w == 1
  | .callAddr => leadingDigit w == 2
  | .seVxByte => leadingDigit w == 3
  | .sneVxByte => leadingDigit w == 4
  | .seVxVy => leadingDigit w == 5 && (m == .leadingDigit || !lowNibbleNonzero w)
  | .ldVxByte => leadingDigit w == 6

/-- The single asserted matcher, if any (R74: at most one is asserted). -/
def assertedIdentity (m : SeVxVyMask) (w : Word) : Option Identity := Identity.all.find? (matcher m w)

/-- `arg0` when `id` is asserted: `opcode[11:0]` for the ADDR forms, `zext_12(x)` for the REG forms, 0 for CLS and RET. -/
def portArg0 (w : Word) : Identity → BitVec 12
  | .cls => 0
  | .ret => 0
  | .jmpAddr => fieldAddr w
  | .callAddr => fieldAddr w
  | .seVxByte => (fieldX w).setWidth 12
  | .sneVxByte => (fieldX w).setWidth 12
  | .seVxVy => (fieldX w).setWidth 12
  | .ldVxByte => (fieldX w).setWidth 12

/-- `arg1` when `id` is asserted: `kk`, `zext_8(y)` for SE_VX_VY, 0 otherwise. -/
def portArg1 (w : Word) : Identity → BitVec 8
  | .cls => 0
  | .ret => 0
  | .jmpAddr => 0
  | .callAddr => 0
  | .seVxByte => fieldByte w
  | .sneVxByte => fieldByte w
  | .seVxVy => (fieldY w).setWidth 8
  | .ldVxByte => fieldByte w

/-- `argc`: 0 for CLS and RET, 1 for JMP_ADDR and CALL_ADDR, 2 otherwise. -/
def portArgc : Identity → BitVec 2
  | .cls => 0
  | .ret => 0
  | .jmpAddr => 1
  | .callAddr => 1
  | .seVxByte => 2
  | .sneVxByte => 2
  | .seVxVy => 2
  | .ldVxByte => 2

/-- The ports for an opcode. On a miss `id` and `arg0` are free values; `argc` and `arg1` take the "otherwise" value of
their equations (log entry 13). -/
def decoderPorts (m : SeVxVyMask) (w : Word) : DecoderPorts :=
  match assertedIdentity m w with
  | some id => ⟨true, id.code, portArgc id, portArg0 w id, portArg1 w id, w⟩
  | none => ⟨false, Config.missId w, 2, Config.missArg0 w, 0, w⟩

end Sys2Proof.Machine
end

