-- ==== Sys2Proof/Safety.lean ====
section
/-!
DEFINITION. What counts as a good state and a good run, in the terms the statements use.
-/

namespace Sys2Proof.Safety

open Sys2Proof.Machine

/-! ## Invariants -/

/-- The memory list has its canonical form. -/
abbrev MemoryCanonical (s : State) : Prop := s.mem.wf = true

/-- Every stack slot above SP holds 0 (spec/10_state.md, the invariant after R26). -/
abbrev StackAboveSpZero (s : State) : Prop :=
  ∀ k : Fin Config.stackDepth, s.sp < (k.val : Int) → s.slot k = 0

/-- PC and every stack slot hold at most 0x1000: "the largest value PC reaches through a fetch is 0x1000" (R22). -/
abbrev PcWithinReach (s : State) : Prop :=
  s.pc.toNat ≤ Config.memSize ∧ ∀ k : Fin Config.stackDepth, (s.slot k).toNat ≤ Config.memSize

/-- The three invariants together. -/
structure GoodState (s : State) : Prop where
  memory : MemoryCanonical s
  stack : StackAboveSpZero s
  reach : PcWithinReach s

/-! ## Runs -/

/-- `n` steps from `s` end in no error (spec/92_eei_decisions.md D15: a claim assumes no error). -/
def ErrorFree (n : Nat) (s : State) : Prop := ∃ t, Sys2Proof.core.run n s = .next t

/-- PC is at a self-jump, the test programs' end marker (spec/70_reset_and_hazards.md R245). -/
def AtSelfJump (s : State) : Prop :=
  s.pc.toNat ≤ fetchLimit ∧
    ∃ a : Address, s.opcodeAtPc = encode (.jmpAddr a) ∧ a.toNat = s.pc.toNat

/-! ## Parts of the state that no instruction can see -/

/-- The state with other values in the registers no instruction reads: I, DT and ST (R24, R27). -/
def withUnread (i : Word) (dt st : Byte) (s : State) : State := { s with i := i, dt := dt, st := st }

/-- An outcome with a change made to the state it holds, be it the next state or the state an error leaves. -/
def mapResult (g : State → State) : Result → Result
  | .next s => .next (g s)
  | .fault (.decode w s) => .fault (.decode w (g s))
  | .fault (.arity id e a s) => .fault (.arity id e a (g s))
  | .fault (.emptyStack s) => .fault (.emptyStack (g s))
  | .fault (.fullStack s) => .fault (.fullStack (g s))
  | .fault (.pcOverflow p d s) => .fault (.pcOverflow p d (g s))
  | .fault (.fetchOob p s) => .fault (.fetchOob p (g s))
  | .refused r => .refused r

/-- Two states that differ at most in stack slots above SP, which no instruction observes (R30). -/
def SameButUnusedSlots (s t : State) : Prop :=
  (∀ k : Fin Config.stackDepth, (k.val : Int) ≤ s.sp → s.slot k = t.slot k) ∧
    { s with stack := t.stack } = t

/-- Two outcomes of one kind, with the same error where there is one, whose states are related. -/
def SameOutcome (rel : State → State → Prop) : Result → Result → Prop
  | .next s, .next t => rel s t
  | .fault f, .fault g => f.code = g.code ∧ f.info = g.info ∧ rel f.after g.after
  | .refused r, .refused q => r = q
  | _, _ => False

/-! ## The contract of a skip (spec/40_dispatch.md R104, R105) -/

/-- The instruction is a skip whose condition in state `s` has the value `cond` (R140 to R142). -/
def IsSkip (cond : Bool) (i : Instr) (s : State) : Prop :=
  (∃ x kk, i = .seVxByte x kk ∧ cond = decide (s.readV x = kk)) ∨
    (∃ x kk, i = .sneVxByte x kk ∧ cond = decide (s.readV x ≠ kk)) ∨
    ∃ x y, i = .seVxVy x y ∧ cond = decide (s.readV x = s.readV y)

/-- Under a policy a skip with condition `cond` checks PC + `delta` against the ceiling (the table of R105, decision D6,
log entry 2): 2 when the condition holds, else 2 under CHECK_ALWAYS, 0 under ZERO_DELTA_ON_NO_SKIP, and no check under
ON_SKIP_ONLY. -/
def ChecksAdvance (policy : SkipOverflowPolicy) (cond : Bool) (delta : Nat) : Prop :=
  (delta = 2 ∧ (cond = true ∨ policy = .checkAlways)) ∨
    (delta = 0 ∧ cond = false ∧ policy = .zeroDeltaOnNoSkip)

/-- The outcome is PC_OVERFLOW and leaves state `s`. Which payload it carries is the spec's own choice (D10) and is not
said here. -/
def IsPcOverflow (s : State) (r : Result) : Prop := ∃ pc delta, r = .fault (.pcOverflow pc delta s)

/-- What a skip answers in state `s` when its condition is `cond`, in all three policies. The sum PC + 2 is that of
unbounded integers where it is compared. -/
structure SkipContract (cond : Bool) (s : State) (r : Result) : Prop where
  taken : cond = true → s.pc.toNat + 2 ≤ 0xFFF → r = .next { s with pc := s.pc + 2 }
  overflow : cond = true → 0xFFF < s.pc.toNat + 2 → IsPcOverflow s r
  onSkipOnly : cond = false → s.params.skipOverflowPolicy = .onSkipOnly → r = .next s
  zeroDelta : cond = false → s.params.skipOverflowPolicy = .zeroDeltaOnNoSkip → s.pc.toNat ≤ 0xFFF → r = .next s
  zeroDeltaOverflow : cond = false → s.params.skipOverflowPolicy = .zeroDeltaOnNoSkip → 0xFFF < s.pc.toNat →
    IsPcOverflow s r
  checkAlways : cond = false → s.params.skipOverflowPolicy = .checkAlways → s.pc.toNat + 2 ≤ 0xFFF → r = .next s
  checkAlwaysOverflow : cond = false → s.params.skipOverflowPolicy = .checkAlways → 0xFFF < s.pc.toNat + 2 →
    IsPcOverflow s r

/-- A direct `execute` of the identity with a wrong operand count raises ARITY and changes nothing
(spec/40_dispatch.md R102). -/
def WrongCountRaisesArity (id : Identity) : Prop :=
  ∀ (ops : List Nat) (s : State), ops.length ≠ id.arity →
    execute ⟨id, ops⟩ s = .fault (.arity id id.arity ops.length s)

end Sys2Proof.Safety
end

