-- ==== Sys2Proof/Certificates/Slice0/Obligations.lean ====
section
/-!
DEFINITION. The statements for the provers. Each docstring names the rule of spec/ it formalises; a clause that rests on
a decision the spec marks as its own (spec/92_eei_decisions.md) or on a choice of the model names the log entry.
-/

open Sys2Proof Sys2Proof.Machine Sys2Proof.Safety

/-! ## Encoding and decoding -/

/-- R77: the encoding is the pattern with each operand shifted into its field, and decoding it gives back the identity
and the operands, at every operand value and under both values of `SE_VX_VY_MASK`. -/
def Obligations.DecodeOfEncodeIsIdentity : Prop :=
  ∀ (m : SeVxVyMask) (i : Instr),
    encode i = ((catalogEntry m i.identity).descriptors.zip i.operands).foldl
        (fun w p => w ||| BitVec.ofNat 16 p.2 <<< p.1.shift) (catalogEntry m i.identity).pattern ∧
      decodeCall m (encode i) = some i.call ∧ decodeWord m (encode i) = some i

/-- A word decodes to an instruction exactly when it is that instruction's encoding, or, under the mask 0xF000, an
encoding of SE_VX_VY with another low nibble (R76; the patterns rest on D1, D2, D4, log entries 1, 4, 5). -/
def Obligations.DecodedWordsAreExactlyEncodings : Prop :=
  ∀ (m : SeVxVyMask) (w : Word) (i : Instr),
    decodeWord m w = some i ↔
      w = encode i ∨ (m = .leadingDigit ∧ (∃ x y, i = .seVxVy x y) ∧ w &&& (0xFFF0 : Word) = encode i)

/-- R74 (derived there from the table, whose patterns rest on D1, log entry 4): no word matches two entries; CLS and RET
match one word each, every other entry only words with its own leading digit; so a matching entry is the one decoded. -/
def Obligations.AtMostOneEntryMatches : Prop :=
  ∀ (m : SeVxVyMask) (w : Word),
    (∀ e ∈ instructionTable m, ∀ f ∈ instructionTable m, e.hits w = true → f.hits w = true → e = f) ∧
      ((catalogEntry m .cls).hits w = true ↔ w = 0x00E0) ∧
      ((catalogEntry m .ret).hits w = true ↔ w = 0x00EE) ∧
      (∀ id : Identity, id ≠ .cls → id ≠ .ret → (catalogEntry m id).hits w = true →
        w >>> 12 = (catalogEntry m id).pattern >>> 12) ∧
      (∀ e ∈ instructionTable m, e.hits w = true →
        decodeCall m w = some ⟨e.identity, e.descriptors.map (·.extract w)⟩)

/-- The ports of R79, computed by its matcher equations, carry what the table's decoder gives: `hit`, the identity code
(the index of the identity's entry, R78), the count and the zero-extended operands (the ports are the spec's rendering, D11; the codes D9, log entry 12). -/
def Obligations.DecoderPortsCarryDecodedCall : Prop :=
  ∀ (m : SeVxVyMask) (w : Word),
    (decoderPorts m w).errOpcode = w ∧
      (decodeCall m w = none ↔ (decoderPorts m w).hit = false) ∧
      ∀ c : Call, decodeCall m w = some c →
        (decoderPorts m w).hit = true ∧
          Identity.ofCode (decoderPorts m w).id = c.identity ∧
          ((instructionTable m)[(decoderPorts m w).id.toNat]?).map (·.identity) = some c.identity ∧
          (decoderPorts m w).argc.toNat = c.operands.length ∧
          (decoderPorts m w).arg0.toNat = c.operands.getD 0 0 ∧
          (decoderPorts m w).arg1.toNat = c.operands.getD 1 0

/-- Every entry of the table meets R63 and R65 under both masks, and no two overlap (the masks and shifts rest on D1, D2,
D4, log entries 1, 4, 5). -/
def Obligations.TableEntriesAreWellFormed : Prop :=
  ∀ m : SeVxVyMask,
    (instructionTable m).length = 8 ∧
      (∀ e ∈ instructionTable m, e.wellFormed = true) ∧
      (instructionTable m).Pairwise (fun e f => e.overlaps f = false)

/-- Words of the spec's test vectors DEC1 to DEC21 decode as it says (D1, D2, log entries 4, 5): a sanity statement. -/
def Obligations.SpecWordsDecode : Prop :=
  decodeWord .leadingDigit 0x00E0 = some .cls ∧
    decodeWord .leadingDigit 0x00EE = some .ret ∧
    decodeWord .leadingDigit 0x10E0 = some (.jmpAddr 0x0E0) ∧
    decodeWord .leadingDigit 0x2ABC = some (.callAddr 0xABC) ∧
    decodeWord .leadingDigit 0x3A5F = some (.seVxByte 10 0x5F) ∧
    decodeWord .leadingDigit 0x4F00 = some (.sneVxByte 15 0x00) ∧
    decodeWord .leadingDigit 0x5121 = some (.seVxVy 1 2) ∧
    decodeWord .leadingDigitAndLowNibble 0x5121 = none ∧
    decodeWord .leadingDigit 0x6B07 = some (.ldVxByte 11 0x07) ∧
    decodeWord .leadingDigit 0x00E1 = none ∧
    decodeWord .leadingDigit 0x7000 = none

/-- R69: every operand the decoder returns is an unsigned value of its kind's width, as many as the identity takes. -/
def Obligations.DecodedOperandsFitTheirKinds : Prop :=
  ∀ (m : SeVxVyMask) (w : Word) (c : Call), decodeCall m w = some c →
    c.operands.length = c.identity.arity ∧ ∀ p ∈ c.identity.kinds.zip c.operands, p.2 < 2 ^ p.1.width

/-- R72: a decoder input above 0xFFFF is refused, neither decoded nor DECODE (the refusal is the spec's reading, D21,
log entry 15); an input of 16 bits is decoded as a word. -/
def Obligations.WideDecoderInputIsRefused : Prop :=
  ∀ (m : SeVxVyMask) (n : Nat),
    (0xFFFF < n → decodeNat m n = .error (.inputTooWide n)) ∧
      (n ≤ 0xFFFF → ∀ i, decodeWord m (BitVec.ofNat 16 n) = some i → decodeNat m n = .ok i) ∧
      (n ≤ 0xFFFF → decodeWord m (BitVec.ofNat 16 n) = none →
        decodeNat m n = .error (.unrecognizedOpcode (BitVec.ofNat 16 n)))

/-! ## The fetch and the step -/

/-- R41: the opcode is big-endian, the byte at PC its high byte and the byte at PC + 1 its low byte. -/
def Obligations.FetchedOpcodeIsBigEndian : Prop :=
  ∀ s : State,
    s.opcodeAtPc.toNat = 256 * (s.byteAt s.pc.toNat).toNat + (s.byteAt (s.pc.toNat + 1)).toNat

/-- R106: below the fetch bound `readOpcode` returns the opcode at PC and advances PC by 2, leaving all else; above it,
it raises FETCH_OOB with PC in its payload and changes nothing (the bound rests on D5, the payload on D10, log entries
6, 12). -/
def Obligations.FetchAdvancesOrFaults : Prop :=
  ∀ s : State,
    (s.pc.toNat ≤ 0xFFE → readOpcode s = .ok (s.opcodeAtPc, { s with pc := s.pc + 2 })) ∧
      (0xFFE < s.pc.toNat → readOpcode s = .error (.fetchOob s.pc s) ∧ step s = .fault (.fetchOob s.pc s))

/-- R107: a step whose fetch succeeds and whose opcode decodes runs that instruction on the state the fetch left, PC
being past the opcode; nothing else is done around it. -/
def Obligations.StepRunsDecodedInstruction : Prop :=
  ∀ (s : State) (i : Instr), s.pc.toNat ≤ 0xFFE → decodeWord s.params.seVxVyMask s.opcodeAtPc = some i →
    step s = exec i { s with pc := s.pc + 2 }

/-- R107: `next` calls `readOpcode`, decodes and executes the result, in that order, and stops at the first error. -/
def Obligations.NextComposesFetchDecodeExecute : Prop :=
  ∀ s : State,
    (∀ f, readOpcode s = .error f → step s = .fault f) ∧
      (∀ w s', readOpcode s = .ok (w, s') →
        (decodeCall s.params.seVxVyMask w = none → ∃ after, step s = .fault (.decode w after)) ∧
          ∀ c, decodeCall s.params.seVxVyMask w = some c → step s = execute c s')

/-- R70: a fetched word that no entry of the table matches raises DECODE with that word, which the step returns. -/
def Obligations.UnmatchedWordRaisesDecode : Prop :=
  ∀ s : State, s.pc.toNat ≤ 0xFFE →
    (∀ e ∈ instructionTable s.params.seVxVyMask, s.opcodeAtPc &&& e.mask ≠ e.pattern) →
    ∃ after, step s = .fault (.decode s.opcodeAtPc after)

/-- R108 and the table of R201 (the kept advance is the spec's decision D7, log entry 8): an error of a step leaves the
state as it was, but for the fetch's PC + 2 where the fetch succeeded. -/
def Obligations.StepErrorKeepsOnlyFetchAdvance : Prop :=
  ∀ (s : State) (f : Fault), step s = .fault f →
    (0xFFE < s.pc.toNat → f.after = s) ∧ (s.pc.toNat ≤ 0xFFE → f.after = { s with pc := s.pc + 2 })

/-- R202 (derived there): the one error a step reports, in the order FETCH_OOB, DECODE, then the instruction's own check;
ARITY never. That a fetch above 0xFFE faults is the spec's decision D5 (R43, R106, log entry 6), and that FETCH_OOB
carries PC is D10 (R200, log entry 12). -/
def Obligations.StepErrorsFollowTheOrder : Prop :=
  ∀ (s : State) (f : Fault), step s = .fault f →
    (0xFFE < s.pc.toNat ∧ f = .fetchOob s.pc s) ∨
      (s.pc.toNat ≤ 0xFFE ∧ decodeWord s.params.seVxVyMask s.opcodeAtPc = none ∧
        f = .decode s.opcodeAtPc f.after) ∨
      (s.pc.toNat ≤ 0xFFE ∧ ∃ i, decodeWord s.params.seVxVyMask s.opcodeAtPc = some i ∧
        ((i = .ret ∧ s.sp = -1 ∧ f = .emptyStack f.after) ∨
          ((∃ a, i = .callAddr a) ∧ s.sp = 15 ∧ f = .fullStack f.after) ∨
          (((∃ x kk, i = .seVxByte x kk) ∨ (∃ x kk, i = .sneVxByte x kk) ∨ (∃ x y, i = .seVxVy x y)) ∧
            0xFFD < s.pc.toNat + 2 ∧ ∃ pc delta, f = .pcOverflow pc delta f.after)))

/-- No instruction and no step is refused: every arm has its meaning, and what stops a step is an error of R200. -/
def Obligations.NothingIsRefused : Prop :=
  ∀ (s : State) (r : Refusal), (∀ i, exec i s ≠ .refused r) ∧ step s ≠ .refused r

/-! ## The dispatch multiplexer -/

/-- R102: before any other action, a wrong operand count raises ARITY naming the identity, the expected and the actual
count; no state changes and no output is made. -/
def Obligations.WrongOperandCountRaisesArity : Prop := ∀ id : Identity, WrongCountRaisesArity id

/-- R103: with the right count, an operand above its kind's width is refused, with no result and no error (decision D12,
log entry 15). -/
def Obligations.WideOperandIsRefused : Prop :=
  ∀ (c : Call) (s : State), c.operands.length = c.identity.arity →
    (∃ p ∈ c.identity.kinds.zip c.operands, 2 ^ p.1.width ≤ p.2) → execute c s = .refused (.operandOutOfRange c)

/-- R100: with the right count and every operand in its width, `execute` selects exactly the arm of its identity. -/
def Obligations.ExecuteSelectsTheArm : Prop :=
  ∀ (c : Call) (s : State), c.operands.length = c.identity.arity →
    (∀ p ∈ c.identity.kinds.zip c.operands, p.2 < 2 ^ p.1.width) →
    ∃ i : Instr, i.identity = c.identity ∧ i.operands = c.operands ∧ execute c s = exec i s

/-- R109: inside `execute`, every error leaves the state exactly as it was when `execute` was entered, the outputs
included. -/
def Obligations.ExecuteErrorsAreAllOrNothing : Prop :=
  ∀ (s : State) (f : Fault),
    (∀ i, exec i s = .fault f → f.after = s) ∧ ∀ c, execute c s = .fault f → f.after = s

/-! ## The instructions -/

/-- R120: CLS invokes the clear-screen operation exactly once and changes no machine state. -/
def Obligations.ClsCallsClearScreenOnce : Prop :=
  WrongCountRaisesArity .cls ∧
    ∀ s : State, exec .cls s = .next { s with outputs := s.outputs ++ [.clearScreen] }

/-- R121: RET pops the top return address into PC, zeroes the slot and lowers SP; on the empty stack it raises
EMPTY_STACK and changes nothing. -/
def Obligations.RetPopsReturnAddress : Prop :=
  WrongCountRaisesArity .ret ∧
    (∀ s : State, s.sp = -1 → exec .ret s = .fault (.emptyStack s)) ∧
    ∀ (s : State) (k : Fin Config.stackDepth), s.sp = (k.val : Int) →
      ∃ t, exec .ret s = .next t ∧ t.sp = (k.val : Int) - 1 ∧ t.pc = s.slot k ∧ t.slot k = 0 ∧
        (∀ j, j ≠ k → t.slot j = s.slot j) ∧ t = { s with pc := t.pc, stack := t.stack, depth := t.depth }

/-- R122: JMP_ADDR loads the 12-bit address operand, zero-extended, into PC and changes nothing else, for every target. -/
def Obligations.JmpLoadsAddress : Prop :=
  WrongCountRaisesArity .jmpAddr ∧
    ∀ (a : Address) (s : State),
      exec (.jmpAddr a) s = .next { s with pc := a.setWidth 16 } ∧ (a.setWidth 16 : Word).toNat = a.toNat

/-- R123: CALL_ADDR pushes the current PC and loads the address operand into PC; on the full stack it raises FULL_STACK
and changes nothing. -/
def Obligations.CallPushesPcAndJumps : Prop :=
  WrongCountRaisesArity .callAddr ∧
    (∀ (a : Address) (s : State), s.sp = 15 → exec (.callAddr a) s = .fault (.fullStack s)) ∧
    ∀ (a : Address) (s : State) (k : Fin Config.stackDepth), s.sp + 1 = (k.val : Int) →
      ∃ t, exec (.callAddr a) s = .next t ∧ t.sp = s.sp + 1 ∧ t.slot k = s.pc ∧ t.pc = a.setWidth 16 ∧
        (∀ j, j ≠ k → t.slot j = s.slot j) ∧ t = { s with pc := t.pc, stack := t.stack, depth := t.depth }

/-- R140: SE_VX_BYTE skips the next instruction when `V[x]` equals the byte, through the bounded increment (R104). What it
does when the condition is false is R105's policy table, the spec's decision D6 (log entry 2). -/
def Obligations.SeVxByteSkipsOnEqual : Prop :=
  WrongCountRaisesArity .seVxByte ∧
    ∀ (x : RegNum) (kk : Byte) (s : State), SkipContract (decide (s.readV x = kk)) s (exec (.seVxByte x kk) s)

/-- R141: SNE_VX_BYTE skips the next instruction when `V[x]` differs from the byte, through the bounded increment (R104).
What it does when the condition is false is R105's policy table, the spec's decision D6 (log entry 2). -/
def Obligations.SneVxByteSkipsOnDifferent : Prop :=
  WrongCountRaisesArity .sneVxByte ∧
    ∀ (x : RegNum) (kk : Byte) (s : State), SkipContract (decide (s.readV x ≠ kk)) s (exec (.sneVxByte x kk) s)

/-- R142: SE_VX_VY skips the next instruction when `V[x]` equals `V[y]`, through the bounded increment (R104). What it does
when the condition is false is R105's policy table, the spec's decision D6 (log entry 2). -/
def Obligations.SeVxVySkipsOnEqual : Prop :=
  WrongCountRaisesArity .seVxVy ∧
    ∀ (x y : RegNum) (s : State), SkipContract (decide (s.readV x = s.readV y)) s (exec (.seVxVy x y) s)

/-- R160: LD_VX_BYTE stores the byte into `V[x]`; no other register and nothing else changes. -/
def Obligations.LdStoresByteInRegister : Prop :=
  WrongCountRaisesArity .ldVxByte ∧
    ∀ (x : RegNum) (kk : Byte) (s : State), ∃ t, exec (.ldVxByte x kk) s = .next t ∧ t.readV x = kk ∧
      (∀ y, y ≠ x → t.readV y = s.readV y) ∧ t = { s with v := t.v }

/-- Where every skip completes, under every policy: at PC at most 0xFFD it answers PC + 2 or PC, as its condition says
(R104, R105, R140 to R142). -/
def Obligations.SkipsCompleteBelowCeiling : Prop :=
  ∀ (x y : RegNum) (kk : Byte) (s : State), s.pc.toNat ≤ 0xFFD →
    exec (.seVxByte x kk) s = .next { s with pc := if s.readV x = kk then s.pc + 2 else s.pc } ∧
      exec (.sneVxByte x kk) s = .next { s with pc := if s.readV x = kk then s.pc else s.pc + 2 } ∧
      exec (.seVxVy x y) s = .next { s with pc := if s.readV x = s.readV y then s.pc + 2 else s.pc }

/-- R104: the bounded increment computes PC + delta as an unbounded integer, and commits it at most at 0xFFF or raises
PC_OVERFLOW with PC unmodified. -/
def Obligations.BoundedAdvanceChecksBeforeCommit : Prop :=
  ∀ (delta : Nat) (s : State),
    (0xFFF < s.pc.toNat + delta → IsPcOverflow s (boundedAdvance delta s)) ∧
      (s.pc.toNat + delta ≤ 0xFFF →
        ∃ t, boundedAdvance delta s = .next t ∧ t.pc.toNat = s.pc.toNat + delta ∧ t = { s with pc := t.pc })

/-- An instruction raises PC_OVERFLOW exactly when it is a skip and the sum PC + delta it checks is above 0xFFF; the
payload is PC and that delta, as it is for the bounded increment by any delta (R104, R105; that the payload is PC and
delta is the spec's decision D10, log entry 12, and which delta is checked is D6, log entry 2). -/
def Obligations.PcOverflowCarriesPcAndDelta : Prop :=
  (∀ (i : Instr) (s after : State) (pc : Word) (delta : Nat),
    exec i s = .fault (.pcOverflow pc delta after) ↔
      ∃ cond, IsSkip cond i s ∧ ChecksAdvance s.params.skipOverflowPolicy cond delta ∧
        0xFFF < s.pc.toNat + delta ∧ pc = s.pc ∧ after = s) ∧
    ∀ (delta : Nat) (s : State), 0xFFF < s.pc.toNat + delta →
      boundedAdvance delta s = .fault (.pcOverflow s.pc delta s)

/-- Under `next`, any of the three skips at address `a` leaves PC = `a` + 4 when its condition holds and `a` + 2 when it
does not (R140 to R142; for SE_VX_BYTE a corner case derived there). -/
def Obligations.StepOverSkipAdvancesByFourOrTwo : Prop :=
  ∀ (s : State) (i : Instr) (cond : Bool), s.pc.toNat + 4 ≤ 0xFFF →
    decodeWord s.params.seVxVyMask s.opcodeAtPc = some i → IsSkip cond i s →
    step s = .next { s with pc := if cond then s.pc + 4 else s.pc + 2 }

/-- For the same register, byte and PC exactly one of SE_VX_BYTE and SNE_VX_BYTE skips (R141, a corner case derived
there). -/
def Obligations.ExactlyOneOfSeAndSneSkips : Prop :=
  ∀ (x : RegNum) (kk : Byte) (s : State), s.pc.toNat ≤ 0xFFD →
    (exec (.seVxByte x kk) s = .next { s with pc := s.pc + 2 } ∧ exec (.sneVxByte x kk) s = .next s) ∨
      (exec (.seVxByte x kk) s = .next s ∧ exec (.sneVxByte x kk) s = .next { s with pc := s.pc + 2 })

/-- A CALL_ADDR and the RET after it come back to the PC that was pushed, with SP and everything else as before, the
freed slot being zero (R121, R123; that the pushed PC is past the CALL under `next` is derived there). -/
def Obligations.CallThenRetComesBack : Prop :=
  ∀ (a : Address) (s : State) (k : Fin Config.stackDepth), s.sp + 1 = (k.val : Int) →
    ∃ t u, exec (.callAddr a) s = .next t ∧ exec .ret t = .next u ∧
      u.pc = s.pc ∧ u.sp = s.sp ∧ u.slot k = 0 ∧ (∀ j, j ≠ k → u.slot j = s.slot j) ∧
      u = { s with stack := u.stack }

/-! ## Frames -/

/-- JMP_ADDR and the three skips change PC and nothing else; every byte of memory reads as before. -/
def Obligations.JumpAndSkipFrame : Prop :=
  ∀ (i : Instr) (s t : State),
    (∃ a, i = .jmpAddr a) ∨ (∃ x kk, i = .seVxByte x kk) ∨ (∃ x kk, i = .sneVxByte x kk) ∨ (∃ x y, i = .seVxVy x y) →
    exec i s = .next t →
    (∀ a, t.byteAt a = s.byteAt a) ∧ (∀ r, t.readV r = s.readV r) ∧ (∀ k, t.slot k = s.slot k) ∧
      t = { s with pc := t.pc }

/-- RET and CALL_ADDR change PC, SP and one stack slot, that of SP for RET and that of SP + 1 for CALL_ADDR; every
register, every other slot and every byte of memory reads as before. -/
def Obligations.CallAndRetFrame : Prop :=
  ∀ (i : Instr) (s t : State), i = .ret ∨ (∃ a, i = .callAddr a) → exec i s = .next t →
    (∀ a, t.byteAt a = s.byteAt a) ∧ (∀ r, t.readV r = s.readV r) ∧
      (∀ k : Fin Config.stackDepth,
        (i = .ret → (k.val : Int) ≠ s.sp) → (i ≠ .ret → (k.val : Int) ≠ s.sp + 1) → t.slot k = s.slot k) ∧
      t = { s with pc := t.pc, stack := t.stack, depth := t.depth }

/-- LD_VX_BYTE changes register `V[x]`, CLS appends one clear-screen event to the outputs, and neither changes anything
else, PC included; every byte of memory reads as before (the events are the model's own field, log entry 11). -/
def Obligations.LoadAndClsFrame : Prop :=
  ∀ (s t : State),
    (∀ x kk, exec (.ldVxByte x kk) s = .next t →
      (∀ a, t.byteAt a = s.byteAt a) ∧ (∀ y, y ≠ x → t.readV y = s.readV y) ∧ (∀ k, t.slot k = s.slot k) ∧
        t = { s with v := t.v }) ∧
      (exec .cls s = .next t →
        (∀ a, t.byteAt a = s.byteAt a) ∧ (∀ r, t.readV r = s.readV r) ∧ (∀ k, t.slot k = s.slot k) ∧
          t = { s with outputs := s.outputs ++ [.clearScreen] })

/-! ## Rules of the whole machine -/

/-- R46: no operation of the core writes memory, whether it ends in a next state or in an error. -/
def Obligations.CoreNeverWritesMemory : Prop :=
  ∀ (s t : State),
    (stateAfter (step s) = some t → ∀ a, t.byteAt a = s.byteAt a) ∧
      (∀ c, stateAfter (execute c s) = some t → ∀ a, t.byteAt a = s.byteAt a) ∧
      (∀ w, readOpcode s = .ok (w, t) → ∀ a, t.byteAt a = s.byteAt a) ∧
      ∀ f, readOpcode s = .error f → ∀ a, f.after.byteAt a = s.byteAt a

/-- R23: within the instructions in scope, only LD_VX_BYTE writes a general register. -/
def Obligations.OnlyLoadWritesARegister : Prop :=
  ∀ (s t : State) (y : RegNum), step s = .next t → t.readV y ≠ s.readV y →
    ∃ kk, decodeWord s.params.seVxVyMask s.opcodeAtPc = some (.ldVxByte y kk) ∧ t.readV y = kk

/-- R22: the ways a step changes PC: the fetch's 2, a satisfied skip's further 2, the address of a jump or call, the
slot a RET pops. -/
def Obligations.PcChangesOnlyAsListed : Prop :=
  ∀ (s t : State), step s = .next t →
    ∃ i, decodeWord s.params.seVxVyMask s.opcodeAtPc = some i ∧
      ((t.pc = s.pc + 2 ∧ i ≠ .ret ∧ (∀ a, i ≠ .jmpAddr a) ∧ (∀ a, i ≠ .callAddr a)) ∨
        (t.pc = s.pc + 4 ∧ t.pc.toNat ≤ 0xFFF ∧
          ((∃ x kk, i = .seVxByte x kk ∧ s.readV x = kk) ∨ (∃ x kk, i = .sneVxByte x kk ∧ s.readV x ≠ kk) ∨
            (∃ x y, i = .seVxVy x y ∧ s.readV x = s.readV y))) ∨
        (∃ a, (i = .jmpAddr a ∨ i = .callAddr a) ∧ t.pc.toNat = a.toNat) ∨
        (i = .ret ∧ ∃ k : Fin Config.stackDepth, s.sp = (k.val : Int) ∧ t.pc = s.slot k))

/-- R24 and R27: no instruction reads or writes I, DT or ST: a step from a state with other values there is the same
step, with those values kept. -/
def Obligations.UnreadRegistersDoNotMatter : Prop :=
  ∀ (s : State) (i : Word) (dt st : Byte),
    step (withUnread i dt st s) = mapResult (withUnread i dt st) (step s)

/-- R30: no instruction observes a stack slot above SP: two states that differ only there step to the same outcome,
and the states it leaves differ at most there again. -/
def Obligations.UnusedStackSlotsDoNotMatter : Prop :=
  ∀ s t : State, SameButUnusedSlots s t → SameOutcome SameButUnusedSlots (step s) (step t)

/-- The memory list keeps its canonical form, the slots above SP stay zero (the invariant after R26, derived there), and
PC and the slots stay at most 0x1000 (R22, derived there), in the next state of every step and in the state every error
leaves. -/
def Obligations.StepKeepsInvariants : Prop :=
  ∀ s t : State, GoodState s → stateAfter (step s) = some t → GoodState t

/-- The invariants hold at reset (R240). That every stack slot is zero there, which gives the zero slots above SP and the
slots' bound, is the spec's decision D8 (log entry 9). -/
def Obligations.ResetMeetsInvariants : Prop := GoodState State.reset

/-- Whatever the host does between operations, memory keeps its canonical form and the instance's parameters stay as they
were (R240 "fixed for the instance"; the accessors are decision D14, log entry 18). -/
def Obligations.SessionKeepsMemoryAndParams : Prop :=
  ∀ (actions : List HostAction) (s : State), MemoryCanonical s →
    MemoryCanonical (hostSession actions s) ∧ (hostSession actions s).params = s.params

/-- Memory, PC, the registers and the stack pointer at reset, as the source states them (R20, R21, R23, R26, R241). -/
def Obligations.ResetStateOfTheSource : Prop :=
  (∀ a, State.reset.byteAt a = 0) ∧ State.reset.pc = 0x200 ∧ (∀ x, State.reset.readV x = 0) ∧ State.reset.sp = -1

/-- I, the stack slots, DT and ST are zero at reset: the spec's decision D8, log entry 9, no statement of the source. -/
def Obligations.ResetStateByDecision : Prop :=
  State.reset.i = 0 ∧ (∀ k, State.reset.slot k = 0) ∧ State.reset.dt = 0 ∧ State.reset.st = 0

/-- The `reset` input re-creates the machine state from any state, keeping the parameters and calling no display
operation (R240; the values of I, the slots, DT and ST are decision D8, log entry 9). -/
def Obligations.HostResetRecreatesState : Prop :=
  ∀ s : State, hostReset s = { State.reset with outputs := s.outputs, params := s.params } ∧ (hostReset s).sp = -1

/-- From reset with nothing loaded the first step fetches 0x0000 and raises DECODE (test vector N10; the kept PC + 2 is
D7, log entry 8). -/
def Obligations.ResetWithoutProgramRaisesDecode : Prop :=
  step State.reset = .fault (.decode 0 { State.reset with pc := 0x202 })

/-! ## The host's side -/

/-- R31: the host reads back what it wrote, for every element and every value in its domain (decision D14, log entry
18). -/
def Obligations.HostWriteReadsBack : Prop :=
  ∀ (e : Element) (value : Int) (s : State), MemoryCanonical s → e.inDomain value = true →
    ∃ t, hostWrite e value s = .next t ∧ hostRead e t = value

/-- No element of the state aliases another (R23): a host write leaves every other element as it was, and the outputs and
parameters too. -/
def Obligations.HostWriteLeavesOtherElements : Prop :=
  ∀ (e e' : Element) (value : Int) (s t : State), MemoryCanonical s → e' ≠ e → hostWrite e value s = .next t →
    hostRead e' t = hostRead e' s ∧ t.outputs = s.outputs ∧ t.params = s.params

/-- SP has the domain -1 to 15 and every other element that of its width; a write outside it is refused (R31; that the
model refuses is log entry 18). -/
def Obligations.HostWriteOutsideDomainIsRefused : Prop :=
  ∀ (e : Element) (value : Int) (s : State),
    (e = .sp ∧ (value < -1 ∨ 15 < value)) ∨ (e ≠ .sp ∧ (value < 0 ∨ 2 ^ e.width ≤ value)) →
    hostWrite e value s = .refused (.hostWriteOutOfDomain value)

/-- R49: a host write of an opcode at PC is seen by the next fetch, with nothing needed in between (decision D14, log
entry 18). -/
def Obligations.StoredOpcodeIsFetchedNext : Prop :=
  ∀ (s : State) (w : Word), MemoryCanonical s → s.pc.toNat ≤ 0xFFE →
    (putOpcode s s.pc.toNat w).opcodeAtPc = w

/-- An encoded instruction stored at PC is the one the next step runs: encoder, memory, fetch, decoder and dispatch
agree (R41, R77, R107; the patterns rest on D1, log entry 4). -/
def Obligations.StoredInstructionRunsNext : Prop :=
  ∀ (s : State) (i : Instr), MemoryCanonical s → s.pc.toNat ≤ 0xFFE →
    step (s.withFetchWord 16 (encode i).toNat) =
      exec i { s.withFetchWord 16 (encode i).toNat with pc := s.pc + 2 }

/-- A self-jump is the end of a run: every number of further steps leaves the state unchanged (R245, the convention is
decision D23). -/
def Obligations.SelfJumpLeavesStateUnchanged : Prop :=
  ∀ s : State, AtSelfJump s → ∀ n : Nat, Sys2Proof.core.run n s = .next s

/-- A `next` requested through the ports reports what the step did: an error's kind, under its code of R200, and payload
with the state it leaves, or success with `cls_req` exactly when a CLS ran (R112, R200; the ports are D11, log entry 14, the codes D10, log entry
12). -/
def Obligations.PortReportsTheStep : Prop :=
  ∀ (r : PortRequest) (s : State), r.op = 1 →
    (∀ f, step s = .fault f →
      transact r s = .answered ⟨true, true, f.code, f.info, none, false⟩ f.after ∧
        ((∃ w t, f = .decode w t ∧ f.code = 1) ∨ (∃ t, f = .emptyStack t ∧ f.code = 3) ∨
          (∃ t, f = .fullStack t ∧ f.code = 4) ∨ (∃ pc delta t, f = .pcOverflow pc delta t ∧ f.code = 5) ∨
          ∃ pc t, f = .fetchOob pc t ∧ f.code = 6)) ∧
      ∀ t, step s = .next t →
        ∃ cls, transact r s = .answered ⟨true, false, 0, 0, none, cls⟩ t ∧
          (cls = true ↔ decodeWord s.params.seVxVyMask s.opcodeAtPc = some .cls)

/-- The identity codes (R78, decision D9), the error codes and the fields of `err_info` (R200, decision D10; log entry
12). That `err_info` is 0 for the two stack errors, which have no payload, is the model's choice (log entry 12). -/
def Obligations.ErrorPayloadFields : Prop :=
  ∀ (w : Word) (id : Identity) (expected actual delta : Nat) (s : State),
    [Identity.cls, .ret, .jmpAddr, .callAddr, .seVxByte, .sneVxByte, .seVxVy, .ldVxByte].map Identity.code =
        [0, 1, 2, 3, 4, 5, 6, 7] ∧
      (Fault.decode w s).code = 1 ∧ (Fault.arity id expected actual s).code = 2 ∧ (Fault.emptyStack s).code = 3 ∧
      (Fault.fullStack s).code = 4 ∧ (Fault.pcOverflow w delta s).code = 5 ∧ (Fault.fetchOob w s).code = 6 ∧
      (Fault.decode w s).info.extractLsb' 0 16 = w ∧
      (Fault.fetchOob w s).info.extractLsb' 0 16 = w ∧
      (Fault.pcOverflow w delta s).info.extractLsb' 0 16 = w ∧
      (Fault.pcOverflow w delta s).info.extractLsb' 16 4 = BitVec.ofNat 4 delta ∧
      (Fault.arity id expected actual s).info.extractLsb' 0 3 = id.code ∧
      Identity.ofCode id.code = id ∧
      (Fault.arity id expected actual s).info.extractLsb' 4 2 = BitVec.ofNat 2 expected ∧
      (Fault.arity id expected actual s).info.extractLsb' 8 8 = BitVec.ofNat 8 actual ∧
      (Fault.emptyStack s).info = 0 ∧ (Fault.fullStack s).info = 0

/-- Reading the text of a line of assembly gives the line back (R80; the syntax is the spec's own, D17, the spacing and
letter case the model's, log entry 19). -/
def Obligations.AssemblyTextReadsBack : Prop := ∀ line : AsmLine, readLine line.text = some line

/-- The host's load of an assembled program puts each line's word at consecutive even offsets, high byte first, and
leaves every byte outside the program and everything but memory as it was (R41, R80, R242; the syntax is D17, log entry 19). -/
def Obligations.LoadedProgramReadsBack : Prop :=
  ∀ (lines : List AsmLine) (a : Nat) (s : State), MemoryCanonical s → a + 2 * lines.length ≤ Config.memSize →
    ∃ t, loadProgram a lines s = .next t ∧
      (∀ j line, lines[j]? = some line →
        composeOpcode (t.byteAt (a + 2 * j)) (t.byteAt (a + 2 * j + 1)) = line.encoding) ∧
      (∀ q, q < a ∨ a + 2 * lines.length ≤ q → t.byteAt q = s.byteAt q) ∧ t = { s with mem := t.mem }
end

