-- ==== Sys2Proof/Laws/WellFormed.lean ====
section
/-!
SUPPORT. An instruction's call is well-formed, and a call is well-formed exactly when it is some instruction's.
-/

namespace Sys2Proof

/-- What the width check says, operand by operand. -/
theorem Call.operandsInWidth_iff (c : Call) :
    c.operandsInWidth = true ↔ ∀ p ∈ c.identity.kinds.zip c.operands, p.2 < 2 ^ p.1.width := by
  simp only [Call.operandsInWidth, List.all_eq_true, decide_eq_true_eq]

/-- An instruction meets its check by construction (spec/40_dispatch.md R103). -/
@[simp] theorem Instr.wellFormed_eq_true (i : Instr) : i.wellFormed = true := by
  have hfit : i.call.operandsInWidth = true := by
    rw [Call.operandsInWidth_iff]
    cases i <;> simp only [Instr.call, Instr.identity, Instr.operands, Identity.kinds, List.zip_cons_cons,
      List.zip_nil_left, List.forall_mem_cons, OperandKind.width]
    case cls => simp
    case ret => simp
    case jmpAddr a => exact ⟨a.isLt, by simp⟩
    case callAddr a => exact ⟨a.isLt, by simp⟩
    case seVxByte x kk => exact ⟨x.isLt, kk.isLt, by simp⟩
    case sneVxByte x kk => exact ⟨x.isLt, kk.isLt, by simp⟩
    case seVxVy x y => exact ⟨x.isLt, y.isLt, by simp⟩
    case ldVxByte x kk => exact ⟨x.isLt, kk.isLt, by simp⟩
  have hcount : i.call.arityOk = true := by cases i <;> rfl
  simp only [Instr.wellFormed, Call.wellFormed, hfit, hcount, Bool.and_self]

/-- The instruction of an instruction's call is the instruction. -/
@[simp] theorem Instr.ofCall_call (i : Instr) : Instr.ofCall i.call = some i := by
  have h : i.call.wellFormed = true := i.wellFormed_eq_true
  unfold Instr.ofCall
  rw [if_pos h]
  cases i <;> simp [Instr.call, Instr.identity, Instr.operands]

/-- Only a well-formed call is some instruction's. -/
theorem Instr.wellFormed_of_ofCall {c : Call} {i : Instr} (h : Instr.ofCall c = some i) : c.wellFormed = true := by
  unfold Instr.ofCall at h
  split at h
  · assumption
  · cases h

/-- The call of the instruction read from a call is that call: no operand bit is lost. -/
theorem Instr.call_of_ofCall {c : Call} {i : Instr} (h : Instr.ofCall c = some i) : i.call = c := by
  have hw := Instr.wellFormed_of_ofCall h
  unfold Instr.ofCall at h
  rw [if_pos hw] at h
  obtain ⟨id, ops⟩ := c
  have hfit := (Call.operandsInWidth_iff _).mp (Bool.and_eq_true _ _ ▸ hw).2
  split at h
  case h_9 => cases h
  all_goals cases h
  all_goals
    rename_i h1 h2
    simp only at h1 h2
    subst h1 h2
    first
    | rfl
    | simpa [Identity.kinds, OperandKind.width, Instr.call, Instr.identity, Instr.operands] using hfit

/-- A well-formed call is some instruction's. -/
theorem Instr.ofCall_isSome {c : Call} (h : c.wellFormed = true) : ∃ i, Instr.ofCall c = some i := by
  obtain ⟨id, ops⟩ := c
  have ha : ops.length = id.arity := by
    simp only [Call.wellFormed, Call.arityOk, Bool.and_eq_true, beq_iff_eq] at h
    exact h.1
  simp only [Instr.ofCall, h, if_true]
  cases id <;> simp only [Identity.arity, Identity.kinds, List.length_cons, List.length_nil, Nat.zero_add] at ha <;>
    first
    | (obtain rfl := List.length_eq_zero_iff.mp ha; exact ⟨_, rfl⟩)
    | (obtain ⟨a, rfl⟩ := List.length_eq_one_iff.mp ha; exact ⟨_, rfl⟩)
    | (obtain ⟨a, b, rfl⟩ := List.length_eq_two.mp ha; exact ⟨_, rfl⟩)

end Sys2Proof
end

