-- ==== Sys2Proof/Laws/Decode.lean ====
section
/-!
SUPPORT. The table's mask and shift arithmetic in terms of the word's fields: what each descriptor extracts, when each
entry matches, and the two ways to put an encoded word together.
-/

namespace Sys2Proof.Machine

/-! ## What the descriptors extract (spec/30_encoding.md R64, R68) -/

@[simp] theorem extract_addr (w : Word) : addrDescriptor.extract w = (fieldAddr w).toNat := by
  have h : (w &&& 0x0FFF) >>> 0 = (fieldAddr w).setWidth 16 := by
    apply BitVec.eq_of_getLsbD_eq
    intro i hi
    interval_cases i <;> simp [fieldAddr]
  have hw : (fieldAddr w).toNat % 65536 = (fieldAddr w).toNat := Nat.mod_eq_of_lt (by have := (fieldAddr w).isLt; omega)
  change ((w &&& 0x0FFF) >>> 0).toNat = _
  rw [h, BitVec.toNat_setWidth]
  exact hw

@[simp] theorem extract_regX (w : Word) : regXDescriptor.extract w = (fieldX w).toNat := by
  have h : (w &&& 0x0F00) >>> 8 = (fieldX w).setWidth 16 := by
    apply BitVec.eq_of_getLsbD_eq
    intro i hi
    interval_cases i <;> simp [fieldX]
  have hw : (fieldX w).toNat % 65536 = (fieldX w).toNat := Nat.mod_eq_of_lt (by have := (fieldX w).isLt; omega)
  change ((w &&& 0x0F00) >>> 8).toNat = _
  rw [h, BitVec.toNat_setWidth]
  exact hw

@[simp] theorem extract_regY (w : Word) : regYDescriptor.extract w = (fieldY w).toNat := by
  have h : (w &&& 0x00F0) >>> 4 = (fieldY w).setWidth 16 := by
    apply BitVec.eq_of_getLsbD_eq
    intro i hi
    interval_cases i <;> simp [fieldY]
  have hw : (fieldY w).toNat % 65536 = (fieldY w).toNat := Nat.mod_eq_of_lt (by have := (fieldY w).isLt; omega)
  change ((w &&& 0x00F0) >>> 4).toNat = _
  rw [h, BitVec.toNat_setWidth]
  exact hw

@[simp] theorem extract_byte (w : Word) : byteDescriptor.extract w = (fieldByte w).toNat := by
  have h : (w &&& 0x00FF) >>> 0 = (fieldByte w).setWidth 16 := by
    apply BitVec.eq_of_getLsbD_eq
    intro i hi
    interval_cases i <;> simp [fieldByte]
  have hw : (fieldByte w).toNat % 65536 = (fieldByte w).toNat := Nat.mod_eq_of_lt (by have := (fieldByte w).isLt; omega)
  change ((w &&& 0x00FF) >>> 0).toNat = _
  rw [h, BitVec.toNat_setWidth]
  exact hw

/-! ## When an entry matches (R65, R67) -/

/-- The mask 0xF000 keeps the leading digit. -/
theorem and_leadingMask (w : Word) : w &&& (0xF000 : Word) = (leadingDigit w).setWidth 16 <<< 12 := by
  apply BitVec.eq_of_getLsbD_eq
  intro i hi
  interval_cases i <;> simp [leadingDigit]

/-- The mask 0xF00F keeps the leading digit and the low nibble. -/
theorem and_leadingLowMask (w : Word) :
    w &&& (0xF00F : Word) = (leadingDigit w).setWidth 16 <<< 12 ||| (w.extractLsb' 0 4).setWidth 16 := by
  apply BitVec.eq_of_getLsbD_eq
  intro i hi
  interval_cases i <;> simp [leadingDigit]

/-- A leading digit placed at the top of a word is the digit a pattern has there. -/
theorem leadingDigit_placed (d : BitVec 4) :
    ((d.setWidth 16 <<< 12 : Word) == 0x1000) = (d == 1) ∧ ((d.setWidth 16 <<< 12 : Word) == 0x2000) = (d == 2) ∧
      ((d.setWidth 16 <<< 12 : Word) == 0x3000) = (d == 3) ∧ ((d.setWidth 16 <<< 12 : Word) == 0x4000) = (d == 4) ∧
      ((d.setWidth 16 <<< 12 : Word) == 0x5000) = (d == 5) ∧ ((d.setWidth 16 <<< 12 : Word) == 0x6000) = (d == 6) := by
  revert d
  decide

/-- The same with the low nibble, for the mask 0xF00F. -/
theorem leadingDigit_low_placed (d n : BitVec 4) :
    ((d.setWidth 16 <<< 12 ||| n.setWidth 16 : Word) == 0x5000) = (d == 5 && !(n != 0)) := by
  revert d n
  decide

/-- Each entry of the table matches exactly the words its matcher equation says (R79). -/
theorem hits_eq_matcher (m : SeVxVyMask) (w : Word) (id : Identity) :
    (catalogEntry m id).hits w = matcher m w id := by
  obtain ⟨h1, h2, h3, h4, h5, h6⟩ := leadingDigit_placed (leadingDigit w)
  have hfull : w &&& 0xFFFF = w := by
    apply BitVec.eq_of_getLsbD_eq
    intro i hi
    interval_cases i <;> simp
  cases id with
  | cls => change ((w &&& 0xFFFF) == 0x00E0) = (w == 0x00E0); rw [hfull]
  | ret => change ((w &&& 0xFFFF) == 0x00EE) = (w == 0x00EE); rw [hfull]
  | jmpAddr => change ((w &&& 0xF000) == 0x1000) = _; rw [and_leadingMask]; exact h1
  | callAddr => change ((w &&& 0xF000) == 0x2000) = _; rw [and_leadingMask]; exact h2
  | seVxByte => change ((w &&& 0xF000) == 0x3000) = _; rw [and_leadingMask]; exact h3
  | sneVxByte => change ((w &&& 0xF000) == 0x4000) = _; rw [and_leadingMask]; exact h4
  | seVxVy =>
    cases m with
    | leadingDigit =>
      change ((w &&& 0xF000) == 0x5000) = _
      rw [and_leadingMask, h5]
      simp [matcher]
    | leadingDigitAndLowNibble =>
      change ((w &&& 0xF00F) == 0x5000) = _
      rw [and_leadingLowMask, leadingDigit_low_placed]
      rfl
  | ldVxByte => change ((w &&& 0xF000) == 0x6000) = _; rw [and_leadingMask]; exact h6

/-- The operands of a word as its fields, for each identity (the table after R68). -/
def operandFields (w : Word) : Identity → List Nat
  | .cls => []
  | .ret => []
  | .jmpAddr => [(fieldAddr w).toNat]
  | .callAddr => [(fieldAddr w).toNat]
  | .seVxByte => [(fieldX w).toNat, (fieldByte w).toNat]
  | .sneVxByte => [(fieldX w).toNat, (fieldByte w).toNat]
  | .seVxVy => [(fieldX w).toNat, (fieldY w).toNat]
  | .ldVxByte => [(fieldX w).toNat, (fieldByte w).toNat]

/-- What an entry's descriptors extract from a word. -/
theorem descriptors_extract (m : SeVxVyMask) (w : Word) (id : Identity) :
    (catalogEntry m id).descriptors.map (·.extract w) = operandFields w id := by
  cases id <;> simp [catalogEntry, operandFields]

/-- The table's decoder in terms of the matchers and the fields. -/
theorem decodeCall_eq (m : SeVxVyMask) (w : Word) :
    decodeCall m w = (assertedIdentity m w).map fun id => ⟨id, operandFields w id⟩ := by
  have hfind : ∀ ids : List Identity,
      ((ids.map (catalogEntry m)).find? (·.hits w)).map (fun e => Call.mk e.identity (e.descriptors.map (·.extract w)))
        = (ids.find? (matcher m w)).map fun id => ⟨id, operandFields w id⟩ := by
    intro ids
    induction ids with
    | nil => rfl
    | cons id ids ih =>
      simp only [List.map_cons, List.find?_cons, hits_eq_matcher]
      cases matcher m w id with
      | true =>
        simp only [Option.map_some, descriptors_extract]
        cases id <;> rfl
      | false => exact ih
  exact hfind Identity.all

/-- The asserted identity's matcher holds. -/
theorem matcher_of_asserted {m : SeVxVyMask} {w : Word} {id : Identity} (h : assertedIdentity m w = some id) :
    matcher m w id = true :=
  List.find?_some h

/-- At most one matcher is asserted, so an asserted matcher's identity is the one the decoder takes (R74). -/
theorem asserted_of_matcher {m : SeVxVyMask} {w : Word} {id : Identity} (h : matcher m w id = true) :
    assertedIdentity m w = some id := by
  have hcls : leadingDigit (0x00E0 : Word) = 0 := by decide
  have hret : leadingDigit (0x00EE : Word) = 0 := by decide
  cases id <;> simp only [matcher, beq_iff_eq, Bool.and_eq_true] at h
  case cls => subst h; cases m <;> decide
  case ret => subst h; cases m <;> decide
  all_goals
    have hc : ¬ w = 0x00E0 := by rintro rfl; simp_all
    have hr : ¬ w = 0x00EE := by rintro rfl; simp_all
    simp_all [assertedIdentity, Identity.all, matcher]

/-! ## Encoded words (R77) -/

/-- A word is put together from its leading digit and its address field. -/
theorem word_of_addr (w : Word) : w = (leadingDigit w).setWidth 16 <<< 12 ||| (fieldAddr w).setWidth 16 := by
  apply BitVec.eq_of_getLsbD_eq
  intro i hi
  interval_cases i <;> simp [leadingDigit, fieldAddr]

/-- A word is put together from its leading digit, its register field and its byte field. -/
theorem word_of_reg_byte (w : Word) :
    w = (leadingDigit w).setWidth 16 <<< 12 ||| (fieldX w).setWidth 16 <<< 8 ||| (fieldByte w).setWidth 16 := by
  apply BitVec.eq_of_getLsbD_eq
  intro i hi
  interval_cases i <;> simp [leadingDigit, fieldX, fieldByte]

/-- The fields of a word put together from a leading digit and an address. -/
theorem fields_of_addr (d : BitVec 4) (a : Address) :
    leadingDigit (d.setWidth 16 <<< 12 ||| a.setWidth 16) = d ∧ fieldAddr (d.setWidth 16 <<< 12 ||| a.setWidth 16) = a := by
  constructor
  · apply BitVec.eq_of_getLsbD_eq
    intro i hi
    interval_cases i <;> simp [leadingDigit]
  · apply BitVec.eq_of_getLsbD_eq
    intro i hi
    interval_cases i <;> simp [fieldAddr]

/-- The fields of a word put together from a leading digit, a register and a byte. -/
theorem fields_of_reg_byte (d x : BitVec 4) (kk : Byte) :
    leadingDigit (d.setWidth 16 <<< 12 ||| x.setWidth 16 <<< 8 ||| kk.setWidth 16) = d ∧
      fieldX (d.setWidth 16 <<< 12 ||| x.setWidth 16 <<< 8 ||| kk.setWidth 16) = x ∧
      fieldByte (d.setWidth 16 <<< 12 ||| x.setWidth 16 <<< 8 ||| kk.setWidth 16) = kk := by
  refine ⟨?_, ?_, ?_⟩
  · apply BitVec.eq_of_getLsbD_eq
    intro i hi
    interval_cases i <;> simp [leadingDigit]
  · apply BitVec.eq_of_getLsbD_eq
    intro i hi
    interval_cases i <;> simp [fieldX]
  · apply BitVec.eq_of_getLsbD_eq
    intro i hi
    interval_cases i <;> simp [fieldByte]

/-- The fields of a word put together from a leading digit and two registers. -/
theorem fields_of_reg_reg (d x y : BitVec 4) :
    leadingDigit (d.setWidth 16 <<< 12 ||| x.setWidth 16 <<< 8 ||| y.setWidth 16 <<< 4) = d ∧
      fieldX (d.setWidth 16 <<< 12 ||| x.setWidth 16 <<< 8 ||| y.setWidth 16 <<< 4) = x ∧
      fieldY (d.setWidth 16 <<< 12 ||| x.setWidth 16 <<< 8 ||| y.setWidth 16 <<< 4) = y ∧
      lowNibbleNonzero (d.setWidth 16 <<< 12 ||| x.setWidth 16 <<< 8 ||| y.setWidth 16 <<< 4) = false := by
  refine ⟨?_, ?_, ?_, ?_⟩
  · apply BitVec.eq_of_getLsbD_eq
    intro i hi
    interval_cases i <;> simp [leadingDigit]
  · apply BitVec.eq_of_getLsbD_eq
    intro i hi
    interval_cases i <;> simp [fieldX]
  · apply BitVec.eq_of_getLsbD_eq
    intro i hi
    interval_cases i <;> simp [fieldY]
  · simp only [lowNibbleNonzero, bne_eq_false_iff_eq]
    apply BitVec.eq_of_getLsbD_eq
    intro i hi
    interval_cases i <;> simp

/-- The encoding of each instruction with operands, put together from its leading digit and its operands (R77). -/
theorem encode_jmpAddr (a : Address) :
    encode (.jmpAddr a) = ((1 : BitVec 4).setWidth 16 <<< 12 ||| a.setWidth 16 : Word) := by
  simp [encode, placeOperands, catalogEntry, Instr.identity, Instr.operands, addrDescriptor]

theorem encode_callAddr (a : Address) :
    encode (.callAddr a) = ((2 : BitVec 4).setWidth 16 <<< 12 ||| a.setWidth 16 : Word) := by
  simp [encode, placeOperands, catalogEntry, Instr.identity, Instr.operands, addrDescriptor]

theorem encode_seVxByte (x : RegNum) (kk : Byte) :
    encode (.seVxByte x kk) = ((3 : BitVec 4).setWidth 16 <<< 12 ||| x.setWidth 16 <<< 8 ||| kk.setWidth 16 : Word) := by
  simp [encode, placeOperands, catalogEntry, Instr.identity, Instr.operands, regXDescriptor, byteDescriptor]

theorem encode_sneVxByte (x : RegNum) (kk : Byte) :
    encode (.sneVxByte x kk) = ((4 : BitVec 4).setWidth 16 <<< 12 ||| x.setWidth 16 <<< 8 ||| kk.setWidth 16 : Word) := by
  simp [encode, placeOperands, catalogEntry, Instr.identity, Instr.operands, regXDescriptor, byteDescriptor]

theorem encode_seVxVy (x y : RegNum) :
    encode (.seVxVy x y) = ((5 : BitVec 4).setWidth 16 <<< 12 ||| x.setWidth 16 <<< 8 ||| y.setWidth 16 <<< 4 : Word) := by
  simp [encode, placeOperands, catalogEntry, Instr.identity, Instr.operands, regXDescriptor, regYDescriptor]

theorem encode_ldVxByte (x : RegNum) (kk : Byte) :
    encode (.ldVxByte x kk) = ((6 : BitVec 4).setWidth 16 <<< 12 ||| x.setWidth 16 <<< 8 ||| kk.setWidth 16 : Word) := by
  simp [encode, placeOperands, catalogEntry, Instr.identity, Instr.operands, regXDescriptor, byteDescriptor]

/-- The two bytes of a word put together again, high byte first (spec/20_memory.md R41). -/
theorem composeOpcode_bytes (w : Word) : composeOpcode (highByte w) (lowByte w) = w := by
  apply BitVec.eq_of_getLsbD_eq
  intro i hi
  interval_cases i <;> simp [composeOpcode, highByte, lowByte]

end Sys2Proof.Machine
end

