-- ==== Sys2Proof/Laws/State.lean ====
section
/-!
SUPPORT. What each named update does to each field of State, and to the reads that go through an accessor: true by
unfolding once, so that no later proof unfolds a record update.
-/

namespace Sys2Proof.Machine

/-! ## setPc -/

@[simp] theorem State.setPc_mem (s : State) (w : Word) : (s.setPc w).mem = s.mem := rfl
@[simp] theorem State.setPc_pc (s : State) (w : Word) : (s.setPc w).pc = w := rfl
@[simp] theorem State.setPc_v (s : State) (w : Word) : (s.setPc w).v = s.v := rfl
@[simp] theorem State.setPc_i (s : State) (w : Word) : (s.setPc w).i = s.i := rfl
@[simp] theorem State.setPc_stack (s : State) (w : Word) : (s.setPc w).stack = s.stack := rfl
@[simp] theorem State.setPc_depth (s : State) (w : Word) : (s.setPc w).depth = s.depth := rfl
@[simp] theorem State.setPc_dt (s : State) (w : Word) : (s.setPc w).dt = s.dt := rfl
@[simp] theorem State.setPc_st (s : State) (w : Word) : (s.setPc w).st = s.st := rfl
@[simp] theorem State.setPc_outputs (s : State) (w : Word) : (s.setPc w).outputs = s.outputs := rfl
@[simp] theorem State.setPc_params (s : State) (w : Word) : (s.setPc w).params = s.params := rfl
@[simp] theorem State.setPc_byteAt (s : State) (w : Word) (q : Nat) : (s.setPc w).byteAt q = s.byteAt q := rfl
@[simp] theorem State.setPc_readV (s : State) (w : Word) (r : RegNum) : (s.setPc w).readV r = s.readV r := rfl
@[simp] theorem State.setPc_slot (s : State) (w : Word) (q : Fin Config.stackDepth) : (s.setPc w).slot q = s.slot q := rfl
@[simp] theorem State.setPc_sp (s : State) (w : Word) : (s.setPc w).sp = s.sp := rfl

/-! ## putByte -/

@[simp] theorem State.putByte_mem (s : State) (a : Nat) (b : Byte) : (s.putByte a b).mem = Memory.put s.mem a b := rfl
@[simp] theorem State.putByte_pc (s : State) (a : Nat) (b : Byte) : (s.putByte a b).pc = s.pc := rfl
@[simp] theorem State.putByte_v (s : State) (a : Nat) (b : Byte) : (s.putByte a b).v = s.v := rfl
@[simp] theorem State.putByte_i (s : State) (a : Nat) (b : Byte) : (s.putByte a b).i = s.i := rfl
@[simp] theorem State.putByte_stack (s : State) (a : Nat) (b : Byte) : (s.putByte a b).stack = s.stack := rfl
@[simp] theorem State.putByte_depth (s : State) (a : Nat) (b : Byte) : (s.putByte a b).depth = s.depth := rfl
@[simp] theorem State.putByte_dt (s : State) (a : Nat) (b : Byte) : (s.putByte a b).dt = s.dt := rfl
@[simp] theorem State.putByte_st (s : State) (a : Nat) (b : Byte) : (s.putByte a b).st = s.st := rfl
@[simp] theorem State.putByte_outputs (s : State) (a : Nat) (b : Byte) : (s.putByte a b).outputs = s.outputs := rfl
@[simp] theorem State.putByte_params (s : State) (a : Nat) (b : Byte) : (s.putByte a b).params = s.params := rfl
@[simp] theorem State.putByte_readV (s : State) (a : Nat) (b : Byte) (r : RegNum) : (s.putByte a b).readV r = s.readV r := rfl
@[simp] theorem State.putByte_slot (s : State) (a : Nat) (b : Byte) (q : Fin Config.stackDepth) : (s.putByte a b).slot q = s.slot q := rfl
@[simp] theorem State.putByte_sp (s : State) (a : Nat) (b : Byte) : (s.putByte a b).sp = s.sp := rfl

/-! ## writeV -/

@[simp] theorem State.writeV_mem (s : State) (x : RegNum) (b : Byte) : (s.writeV x b).mem = s.mem := rfl
@[simp] theorem State.writeV_pc (s : State) (x : RegNum) (b : Byte) : (s.writeV x b).pc = s.pc := rfl
@[simp] theorem State.writeV_v (s : State) (x : RegNum) (b : Byte) : (s.writeV x b).v = s.v.set x.toNat b x.isLt := rfl
@[simp] theorem State.writeV_i (s : State) (x : RegNum) (b : Byte) : (s.writeV x b).i = s.i := rfl
@[simp] theorem State.writeV_stack (s : State) (x : RegNum) (b : Byte) : (s.writeV x b).stack = s.stack := rfl
@[simp] theorem State.writeV_depth (s : State) (x : RegNum) (b : Byte) : (s.writeV x b).depth = s.depth := rfl
@[simp] theorem State.writeV_dt (s : State) (x : RegNum) (b : Byte) : (s.writeV x b).dt = s.dt := rfl
@[simp] theorem State.writeV_st (s : State) (x : RegNum) (b : Byte) : (s.writeV x b).st = s.st := rfl
@[simp] theorem State.writeV_outputs (s : State) (x : RegNum) (b : Byte) : (s.writeV x b).outputs = s.outputs := rfl
@[simp] theorem State.writeV_params (s : State) (x : RegNum) (b : Byte) : (s.writeV x b).params = s.params := rfl
@[simp] theorem State.writeV_byteAt (s : State) (x : RegNum) (b : Byte) (q : Nat) : (s.writeV x b).byteAt q = s.byteAt q := rfl
@[simp] theorem State.writeV_slot (s : State) (x : RegNum) (b : Byte) (q : Fin Config.stackDepth) : (s.writeV x b).slot q = s.slot q := rfl
@[simp] theorem State.writeV_sp (s : State) (x : RegNum) (b : Byte) : (s.writeV x b).sp = s.sp := rfl

/-! ## emit -/

@[simp] theorem State.emit_mem (s : State) (e : OutputEvent) : (s.emit e).mem = s.mem := rfl
@[simp] theorem State.emit_pc (s : State) (e : OutputEvent) : (s.emit e).pc = s.pc := rfl
@[simp] theorem State.emit_v (s : State) (e : OutputEvent) : (s.emit e).v = s.v := rfl
@[simp] theorem State.emit_i (s : State) (e : OutputEvent) : (s.emit e).i = s.i := rfl
@[simp] theorem State.emit_stack (s : State) (e : OutputEvent) : (s.emit e).stack = s.stack := rfl
@[simp] theorem State.emit_depth (s : State) (e : OutputEvent) : (s.emit e).depth = s.depth := rfl
@[simp] theorem State.emit_dt (s : State) (e : OutputEvent) : (s.emit e).dt = s.dt := rfl
@[simp] theorem State.emit_st (s : State) (e : OutputEvent) : (s.emit e).st = s.st := rfl
@[simp] theorem State.emit_outputs (s : State) (e : OutputEvent) : (s.emit e).outputs = s.outputs ++ [e] := rfl
@[simp] theorem State.emit_params (s : State) (e : OutputEvent) : (s.emit e).params = s.params := rfl
@[simp] theorem State.emit_byteAt (s : State) (e : OutputEvent) (q : Nat) : (s.emit e).byteAt q = s.byteAt q := rfl
@[simp] theorem State.emit_readV (s : State) (e : OutputEvent) (r : RegNum) : (s.emit e).readV r = s.readV r := rfl
@[simp] theorem State.emit_slot (s : State) (e : OutputEvent) (q : Fin Config.stackDepth) : (s.emit e).slot q = s.slot q := rfl
@[simp] theorem State.emit_sp (s : State) (e : OutputEvent) : (s.emit e).sp = s.sp := rfl

/-! ## setSlot -/

@[simp] theorem State.setSlot_mem (s : State) (k : Fin Config.stackDepth) (w : Word) : (s.setSlot k w).mem = s.mem := rfl
@[simp] theorem State.setSlot_pc (s : State) (k : Fin Config.stackDepth) (w : Word) : (s.setSlot k w).pc = s.pc := rfl
@[simp] theorem State.setSlot_v (s : State) (k : Fin Config.stackDepth) (w : Word) : (s.setSlot k w).v = s.v := rfl
@[simp] theorem State.setSlot_i (s : State) (k : Fin Config.stackDepth) (w : Word) : (s.setSlot k w).i = s.i := rfl
@[simp] theorem State.setSlot_stack (s : State) (k : Fin Config.stackDepth) (w : Word) : (s.setSlot k w).stack = s.stack.set k.val w k.isLt := rfl
@[simp] theorem State.setSlot_depth (s : State) (k : Fin Config.stackDepth) (w : Word) : (s.setSlot k w).depth = s.depth := rfl
@[simp] theorem State.setSlot_dt (s : State) (k : Fin Config.stackDepth) (w : Word) : (s.setSlot k w).dt = s.dt := rfl
@[simp] theorem State.setSlot_st (s : State) (k : Fin Config.stackDepth) (w : Word) : (s.setSlot k w).st = s.st := rfl
@[simp] theorem State.setSlot_outputs (s : State) (k : Fin Config.stackDepth) (w : Word) : (s.setSlot k w).outputs = s.outputs := rfl
@[simp] theorem State.setSlot_params (s : State) (k : Fin Config.stackDepth) (w : Word) : (s.setSlot k w).params = s.params := rfl
@[simp] theorem State.setSlot_byteAt (s : State) (k : Fin Config.stackDepth) (w : Word) (q : Nat) : (s.setSlot k w).byteAt q = s.byteAt q := rfl
@[simp] theorem State.setSlot_readV (s : State) (k : Fin Config.stackDepth) (w : Word) (r : RegNum) : (s.setSlot k w).readV r = s.readV r := rfl
@[simp] theorem State.setSlot_sp (s : State) (k : Fin Config.stackDepth) (w : Word) : (s.setSlot k w).sp = s.sp := rfl

/-! ## setDepth -/

@[simp] theorem State.setDepth_mem (s : State) (d : Fin (Config.stackDepth + 1)) : (s.setDepth d).mem = s.mem := rfl
@[simp] theorem State.setDepth_pc (s : State) (d : Fin (Config.stackDepth + 1)) : (s.setDepth d).pc = s.pc := rfl
@[simp] theorem State.setDepth_v (s : State) (d : Fin (Config.stackDepth + 1)) : (s.setDepth d).v = s.v := rfl
@[simp] theorem State.setDepth_i (s : State) (d : Fin (Config.stackDepth + 1)) : (s.setDepth d).i = s.i := rfl
@[simp] theorem State.setDepth_stack (s : State) (d : Fin (Config.stackDepth + 1)) : (s.setDepth d).stack = s.stack := rfl
@[simp] theorem State.setDepth_depth (s : State) (d : Fin (Config.stackDepth + 1)) : (s.setDepth d).depth = d := rfl
@[simp] theorem State.setDepth_dt (s : State) (d : Fin (Config.stackDepth + 1)) : (s.setDepth d).dt = s.dt := rfl
@[simp] theorem State.setDepth_st (s : State) (d : Fin (Config.stackDepth + 1)) : (s.setDepth d).st = s.st := rfl
@[simp] theorem State.setDepth_outputs (s : State) (d : Fin (Config.stackDepth + 1)) : (s.setDepth d).outputs = s.outputs := rfl
@[simp] theorem State.setDepth_params (s : State) (d : Fin (Config.stackDepth + 1)) : (s.setDepth d).params = s.params := rfl
@[simp] theorem State.setDepth_byteAt (s : State) (d : Fin (Config.stackDepth + 1)) (q : Nat) : (s.setDepth d).byteAt q = s.byteAt q := rfl
@[simp] theorem State.setDepth_readV (s : State) (d : Fin (Config.stackDepth + 1)) (r : RegNum) : (s.setDepth d).readV r = s.readV r := rfl
@[simp] theorem State.setDepth_slot (s : State) (d : Fin (Config.stackDepth + 1)) (q : Fin Config.stackDepth) : (s.setDepth d).slot q = s.slot q := rfl

/-! ## popInto -/

@[simp] theorem State.popInto_mem (s : State) (k : Fin Config.stackDepth) : (s.popInto k).mem = s.mem := rfl
@[simp] theorem State.popInto_pc (s : State) (k : Fin Config.stackDepth) : (s.popInto k).pc = s.slot k := rfl
@[simp] theorem State.popInto_v (s : State) (k : Fin Config.stackDepth) : (s.popInto k).v = s.v := rfl
@[simp] theorem State.popInto_i (s : State) (k : Fin Config.stackDepth) : (s.popInto k).i = s.i := rfl
@[simp] theorem State.popInto_stack (s : State) (k : Fin Config.stackDepth) : (s.popInto k).stack = s.stack.set k.val 0 k.isLt := rfl
@[simp] theorem State.popInto_depth (s : State) (k : Fin Config.stackDepth) : (s.popInto k).depth = k.castSucc := rfl
@[simp] theorem State.popInto_dt (s : State) (k : Fin Config.stackDepth) : (s.popInto k).dt = s.dt := rfl
@[simp] theorem State.popInto_st (s : State) (k : Fin Config.stackDepth) : (s.popInto k).st = s.st := rfl
@[simp] theorem State.popInto_outputs (s : State) (k : Fin Config.stackDepth) : (s.popInto k).outputs = s.outputs := rfl
@[simp] theorem State.popInto_params (s : State) (k : Fin Config.stackDepth) : (s.popInto k).params = s.params := rfl
@[simp] theorem State.popInto_byteAt (s : State) (k : Fin Config.stackDepth) (q : Nat) : (s.popInto k).byteAt q = s.byteAt q := rfl
@[simp] theorem State.popInto_readV (s : State) (k : Fin Config.stackDepth) (r : RegNum) : (s.popInto k).readV r = s.readV r := rfl

/-! ## pushAndJump -/

@[simp] theorem State.pushAndJump_mem (s : State) (k : Fin Config.stackDepth) (w : Word) : (s.pushAndJump k w).mem = s.mem := rfl
@[simp] theorem State.pushAndJump_pc (s : State) (k : Fin Config.stackDepth) (w : Word) : (s.pushAndJump k w).pc = w := rfl
@[simp] theorem State.pushAndJump_v (s : State) (k : Fin Config.stackDepth) (w : Word) : (s.pushAndJump k w).v = s.v := rfl
@[simp] theorem State.pushAndJump_i (s : State) (k : Fin Config.stackDepth) (w : Word) : (s.pushAndJump k w).i = s.i := rfl
@[simp] theorem State.pushAndJump_stack (s : State) (k : Fin Config.stackDepth) (w : Word) : (s.pushAndJump k w).stack = s.stack.set k.val s.pc k.isLt := rfl
@[simp] theorem State.pushAndJump_depth (s : State) (k : Fin Config.stackDepth) (w : Word) : (s.pushAndJump k w).depth = k.succ := rfl
@[simp] theorem State.pushAndJump_dt (s : State) (k : Fin Config.stackDepth) (w : Word) : (s.pushAndJump k w).dt = s.dt := rfl
@[simp] theorem State.pushAndJump_st (s : State) (k : Fin Config.stackDepth) (w : Word) : (s.pushAndJump k w).st = s.st := rfl
@[simp] theorem State.pushAndJump_outputs (s : State) (k : Fin Config.stackDepth) (w : Word) : (s.pushAndJump k w).outputs = s.outputs := rfl
@[simp] theorem State.pushAndJump_params (s : State) (k : Fin Config.stackDepth) (w : Word) : (s.pushAndJump k w).params = s.params := rfl
@[simp] theorem State.pushAndJump_byteAt (s : State) (k : Fin Config.stackDepth) (w : Word) (q : Nat) : (s.pushAndJump k w).byteAt q = s.byteAt q := rfl
@[simp] theorem State.pushAndJump_readV (s : State) (k : Fin Config.stackDepth) (w : Word) (r : RegNum) : (s.pushAndJump k w).readV r = s.readV r := rfl

/-! ## Reads of what was written -/

/-- A register read after a register write (R23: no register aliases another). -/
theorem State.readV_writeV (s : State) (x y : RegNum) (b : Byte) :
    (s.writeV x b).readV y = if y = x then b else s.readV y := by
  by_cases h : y = x
  · subst h; simp [State.readV]
  · have : ¬ x.toNat = y.toNat := fun e => h (BitVec.eq_of_toNat_eq e.symm)
    simp [State.readV, this, h]

/-- A slot read after a slot write. -/
theorem State.slot_setSlot (s : State) (j k : Fin Config.stackDepth) (w : Word) :
    (s.setSlot k w).slot j = if j = k then w else s.slot j := by
  by_cases h : j = k
  · subst h; simp [State.slot]
  · have : ¬ k.val = j.val := fun e => h (Fin.ext e.symm)
    simp [State.slot, this, h]

/-- The slots after a pop (R121). -/
theorem State.slot_popInto (s : State) (j k : Fin Config.stackDepth) :
    (s.popInto k).slot j = if j = k then 0 else s.slot j :=
  State.slot_setSlot s j k 0

/-- The slots after a push (R123). -/
theorem State.slot_pushAndJump (s : State) (j k : Fin Config.stackDepth) (w : Word) :
    (s.pushAndJump k w).slot j = if j = k then s.pc else s.slot j :=
  State.slot_setSlot s j k s.pc

/-- SP after a pop from slot `k`: `k - 1`. -/
theorem State.sp_popInto (s : State) (k : Fin Config.stackDepth) : (s.popInto k).sp = (k.val : Int) - 1 := rfl

/-- SP after a push to slot `k`: `k`. -/
theorem State.sp_pushAndJump (s : State) (k : Fin Config.stackDepth) (w : Word) :
    (s.pushAndJump k w).sp = (k.val : Int) := by
  simp [State.sp]

/-- Storing PC where it stands changes nothing. -/
@[simp] theorem State.setPc_self (s : State) : s.setPc s.pc = s := rfl

@[simp] theorem State.setPc_setPc (s : State) (a b : Word) : (s.setPc a).setPc b = s.setPc b := rfl

/-- The stack depth as a number below 17. -/
theorem State.depth_lt (s : State) : s.depth.val < 17 := s.depth.isLt

/-- A slot number as a number below 16. -/
theorem slot_lt (k : Fin Config.stackDepth) : k.val < 16 := k.isLt

/-- Every state's SP is in -1 to 15 (R26). -/
theorem State.sp_range (s : State) : -1 ≤ s.sp ∧ s.sp ≤ 15 := by
  have := s.depth_lt
  simp only [State.sp]
  omega

end Sys2Proof.Machine
end

