-- ==== Sys2Proof/Laws/Memory.lean ====
section
/-!
SUPPORT. Reads after writes in memory, and that every memory operation keeps the canonical form.
-/

namespace Sys2Proof.Machine

/-- Below the first listed address a canonical list reads as unlisted. -/
theorem Memory.byteAt_below {m : Memory} {lo a : Nat} (h : Memory.wfFrom lo m = true) (ha : a < lo) :
    Memory.byteAt m a = Config.unlistedByte := by
  induction m generalizing lo with
  | nil => rfl
  | cons c m ih =>
    obtain ⟨k, b⟩ := c
    simp only [Memory.wfFrom, Bool.and_eq_true, decide_eq_true_eq] at h
    obtain ⟨⟨⟨hk, -⟩, -⟩, hm⟩ := h
    have hne : ¬ k = a := by omega
    simp only [Memory.byteAt, hne, if_false]
    exact ih hm (by omega)

/-- A read after a write: the written byte at its address, and every other address as before. -/
theorem Memory.byteAt_put {m : Memory} {lo : Nat} (h : Memory.wfFrom lo m = true) (a q : Nat) (b : Byte) :
    Memory.byteAt (Memory.put m a b) q = if q = a then b else Memory.byteAt m q := by
  induction m generalizing lo with
  | nil =>
    by_cases hb : b = Config.unlistedByte
    · simp [Memory.put, hb, Memory.byteAt]
    · simp only [Memory.put, if_neg hb, Memory.byteAt, eq_comm (a := a)]
  | cons c m ih =>
    obtain ⟨k, c⟩ := c
    simp only [Memory.wfFrom, Bool.and_eq_true, decide_eq_true_eq] at h
    obtain ⟨⟨⟨hk, -⟩, -⟩, hm⟩ := h
    simp only [Memory.put]
    split
    · rename_i hlt
      have hak : Memory.byteAt ((k, c) :: m) a = Config.unlistedByte := by
        have hne : ¬ k = a := by omega
        simp only [Memory.byteAt, hne, if_false]
        exact Memory.byteAt_below hm (by omega)
      split
      · rename_i hb
        by_cases hq : q = a
        · subst hq; simp [hak, hb]
        · simp [hq]
      · by_cases hq : q = a
        · subst hq; simp [Memory.byteAt]
        · have : ¬ a = q := fun e => hq e.symm
          simp [Memory.byteAt, hq, this]
    · split
      · rename_i hak
        subst hak
        split
        · rename_i hb
          by_cases hq : q = a
          · subst hq; simp [Memory.byteAt_below hm (Nat.lt_succ_self q), hb]
          · have : ¬ a = q := fun e => hq e.symm
            simp [Memory.byteAt, hq, this]
        · by_cases hq : q = a
          · subst hq; simp [Memory.byteAt]
          · have : ¬ a = q := fun e => hq e.symm
            simp [Memory.byteAt, hq, this]
      · rename_i hne
        by_cases hq : k = q
        · subst hq
          have : ¬ k = a := fun e => hne e.symm
          simp [Memory.byteAt, this]
        · simp [Memory.byteAt, hq, ih hm]

/-- A write inside memory keeps the canonical form. -/
theorem Memory.put_wfFrom {m : Memory} {lo a : Nat} (h : Memory.wfFrom lo m = true) (hlo : lo ≤ a)
    (ha : a < Config.memSize) (b : Byte) : Memory.wfFrom lo (Memory.put m a b) = true := by
  induction m generalizing lo with
  | nil =>
    by_cases hb : b = Config.unlistedByte
    · simp [Memory.put, hb, Memory.wfFrom]
    · simp only [Memory.put, if_neg hb, Memory.wfFrom, Bool.and_eq_true, decide_eq_true_eq, bne_iff_ne, ne_eq]
      exact ⟨⟨⟨hlo, ha⟩, hb⟩, trivial⟩
  | cons c m ih =>
    obtain ⟨k, c⟩ := c
    have h' := h
    simp only [Memory.wfFrom, Bool.and_eq_true, decide_eq_true_eq] at h
    obtain ⟨⟨⟨hk, hk'⟩, hc⟩, hm⟩ := h
    simp only [Memory.put]
    split
    · split
      · exact h'
      · rename_i hlt hb
        simp only [Memory.wfFrom, Bool.and_eq_true, decide_eq_true_eq, bne_iff_ne, ne_eq] at hc ⊢
        exact ⟨⟨⟨hlo, ha⟩, hb⟩, ⟨⟨⟨hlt, hk'⟩, hc⟩, hm⟩⟩
    · rename_i hnlt
      split
      · rename_i hak
        subst hak
        split
        · have hwk : ∀ lo' lo'' : Nat, lo' ≤ lo'' → Memory.wfFrom lo'' m = true → Memory.wfFrom lo' m = true := by
            intro lo' lo'' hle hw
            cases m with
            | nil => rfl
            | cons d m =>
              obtain ⟨j, e⟩ := d
              simp only [Memory.wfFrom, Bool.and_eq_true, decide_eq_true_eq] at hw ⊢
              exact ⟨⟨⟨by omega, hw.1.1.2⟩, hw.1.2⟩, hw.2⟩
          exact hwk lo (a + 1) (by omega) hm
        · rename_i hb
          simp only [Memory.wfFrom, Bool.and_eq_true, decide_eq_true_eq, bne_iff_ne, ne_eq]
          exact ⟨⟨⟨hlo, ha⟩, hb⟩, hm⟩
      · rename_i hne
        simp only [Memory.wfFrom, Bool.and_eq_true, decide_eq_true_eq]
        exact ⟨⟨⟨hk, hk'⟩, hc⟩, ih hm (by omega)⟩

/-- A write inside memory keeps the canonical form. -/
theorem Memory.put_wf {m : Memory} {a : Nat} (h : m.wf = true) (ha : a < Config.memSize) (b : Byte) :
    (Memory.put m a b).wf = true :=
  Memory.put_wfFrom h (Nat.zero_le a) ha b

/-- No canonical list of one cell or more reads as unlisted everywhere. -/
theorem Memory.byteAt_head {lo k : Nat} {b : Byte} {m : Memory} (h : Memory.wfFrom lo ((k, b) :: m) = true) :
    Memory.byteAt ((k, b) :: m) k = b ∧ ¬ b = Config.unlistedByte := by
  simp only [Memory.wfFrom, Bool.and_eq_true, bne_iff_ne, ne_eq] at h
  exact ⟨by simp [Memory.byteAt], h.1.2⟩

/-- Equal memories are equal lists: two canonical lists that read the same everywhere are the same list. -/
theorem Memory.ext_of_wfFrom {m n : Memory} {lo lo' : Nat} (hm : Memory.wfFrom lo m = true)
    (hn : Memory.wfFrom lo' n = true) (h : ∀ a, Memory.byteAt m a = Memory.byteAt n a) : m = n := by
  induction m generalizing lo lo' n with
  | nil =>
    cases n with
    | nil => rfl
    | cons d n =>
      obtain ⟨j, e⟩ := d
      have := Memory.byteAt_head hn
      exact absurd ((h j).trans this.1).symm this.2
  | cons c m ih =>
    obtain ⟨k, b⟩ := c
    cases n with
    | nil =>
      have := Memory.byteAt_head hm
      exact absurd (this.1.symm.trans (h k)) this.2
    | cons d n =>
      obtain ⟨j, e⟩ := d
      have hbm := Memory.byteAt_head hm
      have hbn := Memory.byteAt_head hn
      have hm' := hm
      have hn' := hn
      simp only [Memory.wfFrom, Bool.and_eq_true, decide_eq_true_eq] at hm hn
      have hkj : k = j := by
        rcases Nat.lt_trichotomy k j with hlt | heq | hgt
        · have hb : Memory.byteAt ((j, e) :: n) k = Config.unlistedByte :=
            Memory.byteAt_below (lo := j) (by
              simp only [Memory.wfFrom, Bool.and_eq_true, decide_eq_true_eq]
              exact ⟨⟨⟨Nat.le_refl j, hn.1.1.2⟩, hn.1.2⟩, hn.2⟩) hlt
          exact absurd (hbm.1.symm.trans ((h k).trans hb)) hbm.2
        · exact heq
        · have hb : Memory.byteAt ((k, b) :: m) j = Config.unlistedByte :=
            Memory.byteAt_below (lo := k) (by
              simp only [Memory.wfFrom, Bool.and_eq_true, decide_eq_true_eq]
              exact ⟨⟨⟨Nat.le_refl k, hm.1.1.2⟩, hm.1.2⟩, hm.2⟩) hgt
          exact absurd (hbn.1.symm.trans ((h j).symm.trans hb)) hbn.2
      subst hkj
      have hbe : b = e := hbm.1.symm.trans ((h k).trans hbn.1)
      subst hbe
      have htail : ∀ a, Memory.byteAt m a = Memory.byteAt n a := by
        intro a
        by_cases ha : a = k
        · subst ha
          rw [Memory.byteAt_below hm.2 (Nat.lt_succ_self a), Memory.byteAt_below hn.2 (Nat.lt_succ_self a)]
        · have := h a
          have hne : ¬ k = a := fun e => ha e.symm
          simpa only [Memory.byteAt, if_neg hne] using this
      rw [ih hm.2 hn.2 htail]

/-- The host's byte store keeps the canonical form. -/
theorem State.putByte_wf {s : State} {a : Nat} (h : s.mem.wf = true) (ha : a < Config.memSize) (b : Byte) :
    (s.putByte a b).mem.wf = true :=
  Memory.put_wf h ha b

/-- A byte read after the host's byte store. -/
theorem State.byteAt_putByte {s : State} (h : s.mem.wf = true) (a q : Nat) (b : Byte) :
    (s.putByte a b).byteAt q = if q = a then b else s.byteAt q :=
  Memory.byteAt_put h a q b

/-- The host's opcode store keeps the canonical form. -/
theorem putOpcode_wf {s : State} {a : Nat} (h : s.mem.wf = true) (ha : a + 1 < Config.memSize) (w : Word) :
    (putOpcode s a w).mem.wf = true :=
  State.putByte_wf (State.putByte_wf h (by omega) _) ha _

/-- The host's image store keeps the canonical form. -/
theorem storeBytes_wf {s : State} (bytes : List Byte) {a : Nat} (h : s.mem.wf = true)
    (ha : a + bytes.length ≤ Config.memSize) : (storeBytes a bytes s).mem.wf = true := by
  induction bytes generalizing a s with
  | nil => exact h
  | cons b bytes ih =>
    simp only [List.length_cons] at ha
    exact ih (State.putByte_wf h (by omega) b) (by omega)

/-- The host's program load keeps the canonical form. -/
theorem loadImage_wf {s t : State} {a : Nat} {bytes : List Byte} (h : s.mem.wf = true)
    (hl : loadImage a bytes s = .next t) : t.mem.wf = true := by
  unfold loadImage at hl
  split at hl
  · injection hl with hl
    exact hl ▸ storeBytes_wf bytes h (by assumption)
  · cases hl

/-- Reset memory has the canonical form. -/
theorem reset_wf : State.reset.mem.wf = true := rfl

end Sys2Proof.Machine
end

