-- ==== Sys2Proof/Laws/Ops.lean ====
section
/-!
SUPPORT. One inversion lemma for each shared operation: everything it can answer. The later proofs cite these and do
not unfold the operation.
-/

namespace Sys2Proof.Machine

open Sys2Proof.Safety

/-! ## The stack pointer -/

/-- RET finds slot `k` exactly at SP = `k` (R26). -/
theorem State.topSlot_eq_some {s : State} {k : Fin Config.stackDepth} : s.topSlot = some k ↔ s.sp = (k.val : Int) := by
  obtain ⟨k, hk⟩ := k
  unfold State.topSlot State.sp
  split
  · rename_i h
    simp only [h, reduceCtorEq, false_iff]
    omega
  · rename_i j hj h
    simp [h]

/-- RET finds no slot exactly at SP = -1 (R26). -/
theorem State.topSlot_eq_none {s : State} : s.topSlot = none ↔ s.sp = -1 := by
  unfold State.topSlot State.sp
  split
  · rename_i h
    simp [h]
  · rename_i j hj h
    simp only [h, reduceCtorEq, false_iff]
    omega

/-- CALL_ADDR finds slot `k` exactly at SP + 1 = `k` (R26). -/
theorem State.freeSlot_eq_some {s : State} {k : Fin Config.stackDepth} :
    s.freeSlot = some k ↔ s.sp + 1 = (k.val : Int) := by
  obtain ⟨k, hk⟩ := k
  unfold State.freeSlot State.sp
  split
  · simp
  · rename_i h
    simp only [reduceCtorEq, false_iff]
    omega

/-- CALL_ADDR finds no slot exactly at SP = 15 (R26). -/
theorem State.freeSlot_eq_none {s : State} : s.freeSlot = none ↔ s.sp = 15 := by
  have hlt := s.depth_lt
  unfold State.freeSlot State.sp
  split
  · rename_i h
    have h16 : s.depth.val < 16 := h
    simp only [reduceCtorEq, false_iff]
    omega
  · rename_i h
    have h16 : ¬ s.depth.val < 16 := h
    simp only [true_iff]
    omega

/-! ## The bounded increment and the skip policy -/

/-- Everything a bounded increment can answer (R104). -/
theorem boundedAdvance_cases (delta : Nat) (s : State) :
    (s.advanced delta ≤ Config.pcCeiling ∧
        boundedAdvance delta s = .next (s.setPc (BitVec.ofNat 16 (s.advanced delta)))) ∨
      (Config.pcCeiling < s.advanced delta ∧ boundedAdvance delta s = .fault (.pcOverflow s.pc delta s)) := by
  unfold boundedAdvance
  split
  · rename_i h; exact .inr ⟨h, rfl⟩
  · rename_i h; exact .inl ⟨Nat.le_of_not_lt h, rfl⟩

/-- A bounded increment by 0 that commits leaves the state as it was. -/
theorem setPc_advanced_zero (s : State) : s.setPc (BitVec.ofNat 16 (s.advanced 0)) = s := by
  simp [State.advanced]

/-- Everything a skip can answer (R105): PC + 2 where its condition holds and the sum is at most the ceiling; the state as
it was where the condition is false and no checked sum is above the ceiling; else PC_OVERFLOW with the checked delta. -/
theorem skipIf_cases (cond : Bool) (s : State) :
    (cond = true ∧ s.advanced 2 ≤ Config.pcCeiling ∧
        skipIf cond s = .next (s.setPc (BitVec.ofNat 16 (s.advanced 2)))) ∨
      (cond = false ∧
        (∀ delta, ChecksAdvance s.params.skipOverflowPolicy cond delta → s.advanced delta ≤ Config.pcCeiling) ∧
        skipIf cond s = .next s) ∨
      (∃ delta, ChecksAdvance s.params.skipOverflowPolicy cond delta ∧ Config.pcCeiling < s.advanced delta ∧
        skipIf cond s = .fault (.pcOverflow s.pc delta s)) := by
  unfold skipIf
  cases hp : s.params.skipOverflowPolicy <;> cases cond <;> simp only [Bool.false_eq_true, if_true, if_false]
  case onSkipOnly.false => exact .inr (.inl ⟨trivial, by simp [ChecksAdvance], trivial⟩)
  case zeroDeltaOnNoSkip.false =>
    rcases boundedAdvance_cases 0 s with ⟨h, e⟩ | ⟨h, e⟩
    · exact .inr (.inl ⟨trivial, by simpa [ChecksAdvance] using h, e.trans (by rw [setPc_advanced_zero])⟩)
    · exact .inr (.inr ⟨0, .inr ⟨rfl, rfl, rfl⟩, h, e⟩)
  case checkAlways.false =>
    split
    · rename_i h; exact .inr (.inr ⟨2, .inl ⟨rfl, .inr rfl⟩, h, rfl⟩)
    · rename_i h; exact .inr (.inl ⟨trivial, by simpa [ChecksAdvance] using h, rfl⟩)
  case checkAlways.true =>
    split
    · rename_i h; exact .inr (.inr ⟨2, .inl ⟨rfl, .inl rfl⟩, h, rfl⟩)
    · rename_i h; exact .inl ⟨trivial, Nat.le_of_not_lt h, rfl⟩
  all_goals
    rcases boundedAdvance_cases 2 s with ⟨h, e⟩ | ⟨h, e⟩
    · exact .inl ⟨trivial, h, e⟩
    · exact .inr (.inr ⟨2, .inl ⟨rfl, .inl rfl⟩, h, e⟩)

/-- A skip runs the shared skip operation on its condition (R140 to R142). -/
theorem exec_of_isSkip {cond : Bool} {i : Instr} {s : State} (h : IsSkip cond i s) : exec i s = skipIf cond s := by
  obtain ⟨x, kk, rfl, rfl⟩ | ⟨x, kk, rfl, rfl⟩ | ⟨x, y, rfl, rfl⟩ := h
  · rfl
  · have hne : registerNeByte x kk s = decide (s.readV x ≠ kk) := by
      simp only [registerNeByte, registerValue, byteValue, bne, Bool.beq_eq_decide_eq, ne_eq, decide_not]
    exact congrArg (skipIf · s) hne
  · rfl

/-! ## The arms and the step -/

/-- Everything RET can answer (R121). -/
theorem execRet_cases (s : State) :
    (s.sp = -1 ∧ execRet s = .fault (.emptyStack s)) ∨
      (∃ k : Fin Config.stackDepth, s.sp = (k.val : Int) ∧ execRet s = .next (s.popInto k)) := by
  unfold execRet
  split
  · rename_i h; exact .inl ⟨State.topSlot_eq_none.mp h, rfl⟩
  · rename_i k h; exact .inr ⟨k, State.topSlot_eq_some.mp h, rfl⟩

/-- Everything CALL_ADDR can answer (R123). -/
theorem execCallAddr_cases (addr : Address) (s : State) :
    (s.sp = 15 ∧ execCallAddr addr s = .fault (.fullStack s)) ∨
      (∃ k : Fin Config.stackDepth, s.sp + 1 = (k.val : Int) ∧
        execCallAddr addr s = .next (s.pushAndJump k (addressValue addr))) := by
  unfold execCallAddr
  split
  · rename_i h; exact .inl ⟨State.freeSlot_eq_none.mp h, rfl⟩
  · rename_i k h; exact .inr ⟨k, State.freeSlot_eq_some.mp h, rfl⟩

/-- Everything the fetch can answer (R106, R43). -/
theorem readOpcode_cases (s : State) :
    (0xFFE < s.pc.toNat ∧ readOpcode s = .error (.fetchOob s.pc s)) ∨
      (s.pc.toNat ≤ 0xFFE ∧
        readOpcode s = .ok (s.opcodeAtPc, s.setPc (BitVec.ofNat 16 (s.advanced 2)))) := by
  unfold readOpcode
  split
  · rename_i h; exact .inl ⟨h, rfl⟩
  · rename_i h; exact .inr ⟨Nat.le_of_not_lt h, rfl⟩

/-- Everything one step can do, up to the executed instruction (R107, R202). -/
theorem step_cases (s : State) :
    (0xFFE < s.pc.toNat ∧ next s = .fault (.fetchOob s.pc s)) ∨
      (s.pc.toNat ≤ 0xFFE ∧ decodeWord s.params.seVxVyMask s.opcodeAtPc = none ∧
        next s = .fault (.decode s.opcodeAtPc (s.setPc (BitVec.ofNat 16 (s.advanced 2))))) ∨
      (∃ i, s.pc.toNat ≤ 0xFFE ∧ decodeWord s.params.seVxVyMask s.opcodeAtPc = some i ∧
        next s = exec i (s.setPc (BitVec.ofNat 16 (s.advanced 2)))) := by
  rcases readOpcode_cases s with ⟨h, e⟩ | ⟨h, e⟩
  · exact .inl ⟨h, by simp only [next, e]⟩
  · right
    simp only [next, e, decodeAndExecute, State.setPc_params]
    cases hd : decodeWord s.params.seVxVyMask s.opcodeAtPc with
    | none => exact .inl ⟨h, rfl, rfl⟩
    | some i => exact .inr ⟨i, h, rfl, rfl⟩

/-- PC after a fetch, as a number: no wrap. -/
theorem fetched_pc {s : State} (h : s.pc.toNat ≤ 0xFFE) : (BitVec.ofNat 16 (s.advanced 2)).toNat = s.pc.toNat + 2 := by
  simp only [State.advanced, BitVec.toNat_ofNat]
  omega

/-- The bounded increment's sum and the 16-bit sum hold the same 16 bits. -/
theorem advanced_eq_add (s : State) : BitVec.ofNat 16 (s.advanced 2) = s.pc + 2 := by
  apply BitVec.eq_of_toNat_eq
  have htwo : BitVec.toNat (2 : Word) = 2 := rfl
  rw [BitVec.toNat_ofNat, BitVec.toNat_add, htwo, State.advanced]

/-- `execute` on an instruction's call is that instruction's arm. -/
@[simp] theorem execute_ofCall {c : Call} {i : Instr} (h : Instr.ofCall c = some i) (s : State) :
    execute c s = exec i s := by
  have hw := Instr.wellFormed_of_ofCall h
  simp only [Call.wellFormed, Bool.and_eq_true] at hw
  simp only [execute, hw.1, if_true, h]

end Sys2Proof.Machine
end

