-- ==== Sys2Proof/Laws/PerInstr.lean ====
section
/-!
SUPPORT. Statements made instruction by instruction, with one lemma for each constructor.
-/

/-- An instruction has exactly as many operands as its identity's arity, and each operand lies within the width of its
kind (spec/40_dispatch.md R101, R103). -/
def Sys2Proof.Laws.OperandsFit.Statement (i : Sys2Proof.Instr) : Prop :=
  i.operands.length = i.identity.arity ∧
    ∀ p ∈ i.identity.kinds.zip i.operands, p.2 < 2 ^ p.1.width

namespace Sys2Proof.Laws.OperandsFit

/-- What the two checks of a well-formed instruction say. -/
theorem ofWellFormed {i : Instr} (h : i.wellFormed = true) : Statement i := by
  simp only [Instr.wellFormed, Call.wellFormed, Bool.and_eq_true] at h
  exact ⟨beq_iff_eq.mp h.1, (Call.operandsInWidth_iff i.call).mp h.2⟩

theorem cls : Statement .cls := ofWellFormed (Instr.wellFormed_eq_true _)

theorem ret : Statement .ret := ofWellFormed (Instr.wellFormed_eq_true _)

theorem jmpAddr (addr : Address) : Statement (.jmpAddr addr) := ofWellFormed (Instr.wellFormed_eq_true _)

theorem callAddr (addr : Address) : Statement (.callAddr addr) := ofWellFormed (Instr.wellFormed_eq_true _)

theorem seVxByte (x : RegNum) (kk : Byte) : Statement (.seVxByte x kk) := ofWellFormed (Instr.wellFormed_eq_true _)

theorem sneVxByte (x : RegNum) (kk : Byte) : Statement (.sneVxByte x kk) := ofWellFormed (Instr.wellFormed_eq_true _)

theorem seVxVy (x y : RegNum) : Statement (.seVxVy x y) := ofWellFormed (Instr.wellFormed_eq_true _)

theorem ldVxByte (x : RegNum) (kk : Byte) : Statement (.ldVxByte x kk) := ofWellFormed (Instr.wellFormed_eq_true _)

end Sys2Proof.Laws.OperandsFit
end

