-- ==== Sys2Proof/Laws/Run.lean ====
section
/-!
SUPPORT. What the state after any instruction can be, next state or state left by an error alike, said once; and a run
by one step.
-/

namespace Sys2Proof.Machine

/-- The state a skip leaves: as it was, or with PC at most at the ceiling. -/
theorem skipIf_after_cases {cond : Bool} {s t : State} (h : stateAfter (skipIf cond s) = some t) :
    t = s ∨ ∃ p : Word, t = s.setPc p ∧ p.toNat ≤ 0xFFF := by
  rcases skipIf_cases cond s with ⟨-, hle, e⟩ | ⟨-, -, e⟩ | ⟨d, -, -, e⟩ <;> rw [e] at h <;> cases h
  · refine .inr ⟨_, rfl, ?_⟩
    rw [BitVec.toNat_ofNat]
    simp only [Config.pcCeiling] at hle
    omega
  · exact .inl rfl
  · exact .inl rfl

/-- Every state an instruction can leave: as it was, with another PC at most 0xFFF, with one more output, with one
register written, after a pop, or after a push and jump. -/
theorem exec_after_cases {i : Instr} {s t : State} (h : stateAfter (exec i s) = some t) :
    t = s ∨ (∃ p : Word, t = s.setPc p ∧ p.toNat ≤ 0xFFF) ∨ t = s.emit .clearScreen ∨
      (∃ x kk, t = s.writeV x kk) ∨
      (∃ k : Fin Config.stackDepth, s.sp = (k.val : Int) ∧ t = s.popInto k) ∨
      (∃ (k : Fin Config.stackDepth) (a : Address),
        s.sp + 1 = (k.val : Int) ∧ t = s.pushAndJump k (addressValue a)) := by
  cases i with
  | cls => cases h; exact .inr (.inr (.inl rfl))
  | ret =>
    rcases execRet_cases s with ⟨-, e⟩ | ⟨k, hk, e⟩ <;> simp only [exec, e] at h <;> cases h
    · exact .inl rfl
    · exact .inr (.inr (.inr (.inr (.inl ⟨k, hk, rfl⟩))))
  | jmpAddr a =>
    cases h
    refine .inr (.inl ⟨_, rfl, ?_⟩)
    have := a.isLt
    simp [addressValue]
    omega
  | callAddr a =>
    rcases execCallAddr_cases a s with ⟨-, e⟩ | ⟨k, hk, e⟩ <;> simp only [exec, e] at h <;> cases h
    · exact .inl rfl
    · exact .inr (.inr (.inr (.inr (.inr ⟨k, a, hk, rfl⟩))))
  | seVxByte x kk => exact (skipIf_after_cases h).imp id Or.inl
  | sneVxByte x kk => exact (skipIf_after_cases h).imp id Or.inl
  | seVxVy x y => exact (skipIf_after_cases h).imp id Or.inl
  | ldVxByte x kk => cases h; exact .inr (.inr (.inr (.inl ⟨x, kk, rfl⟩)))

/-- A run whose first step completes goes on from the state it leaves. -/
theorem run_succ_of_next {s t : State} (h : step s = .next t) (n : Nat) :
    Sys2Proof.core.run (n + 1) s = Sys2Proof.core.run n t := by
  have hs : Sys2Proof.core.step s = .next t := h
  simp only [Host.Core.run, hs]

end Sys2Proof.Machine
end

