-- ==== Sys2Proof/Tests/Slice0.lean ====
section
/-!
SUPPORT. Tests of the model against the spec's own test vectors (spec/95_test_vectors.md) and hand-written encodings,
and a witness for every statement that has hypotheses.
-/

namespace Sys2Proof.Tests

open Sys2Proof.Machine Sys2Proof.Safety

/-! ## Small states -/

def nextOf : Result → Option State
  | .next s => some s
  | _ => none

def faultOf : Result → Option Fault
  | .fault f => some f
  | _ => none

def refusalOf : Result → Option Refusal
  | .refused r => some r
  | _ => none

def atPc (pc : Word) : State := State.reset.setPc pc

def withOpcode (pc w : Word) : State := putOpcode (atPc pc) pc.toNat w

def withPolicy (p : SkipOverflowPolicy) (s : State) : State := { s with params := { s.params with skipOverflowPolicy := p } }

def withMask (m : SeVxVyMask) (s : State) : State := { s with params := { s.params with seVxVyMask := m } }

def fullStack : State := State.reset.setDepth 16

/-! ## Well-formedness: each check refuses an ill-formed term -/

theorem test_wf_descriptor_refuses_gap : Descriptor.wellFormed ⟨.byte, 0x0F0F, 0⟩ = false := by decide
theorem test_wf_descriptor_refuses_low_bit : Descriptor.wellFormed ⟨.register, 0x0F01, 8⟩ = false := by decide
theorem test_wf_entry_refuses_operand_in_mask :
    CatalogEntry.wellFormed ⟨.jmpAddr, 0xFF00, 0x1000, [addrDescriptor]⟩ = false := by decide
theorem test_wf_entry_refuses_pattern_outside_mask :
    CatalogEntry.wellFormed ⟨.jmpAddr, 0xF000, 0x1001, [addrDescriptor]⟩ = false := by decide
theorem test_wf_entry_refuses_wrong_kinds :
    CatalogEntry.wellFormed ⟨.jmpAddr, 0xF000, 0x1000, [byteDescriptor]⟩ = false := by decide
theorem test_wf_overlap_found :
    CatalogEntry.overlaps (catalogEntry .leadingDigit .cls) ⟨.cls, 0xF000, 0x0000, []⟩ = true := by decide
theorem test_wf_call_refuses_missing_operand : Call.wellFormed ⟨.seVxByte, [1]⟩ = false := by decide
theorem test_wf_call_refuses_extra_operand : Call.wellFormed ⟨.cls, [1]⟩ = false := by decide
theorem test_wf_call_refuses_wide_address : Call.wellFormed ⟨.jmpAddr, [0x1000]⟩ = false := by decide
theorem test_wf_call_refuses_wide_register : Call.wellFormed ⟨.seVxVy, [3, 16]⟩ = false := by decide
theorem test_wf_call_refuses_wide_byte : Call.wellFormed ⟨.ldVxByte, [3, 0x100]⟩ = false := by decide
theorem test_wf_decoder_input_refuses_wide : decoderInputOk 0x10000 = false := by decide
theorem test_wf_instr : Instr.wellFormed (.ldVxByte 15 0xFF) = true := by decide

/-! ## Decoding: words written out bit by bit from spec/30_encoding.md R60, R65 -/

theorem test_decode_cls : decodeWord .leadingDigit 0b0000_0000_1110_0000 = some .cls := by decide
theorem test_decode_ret : decodeWord .leadingDigit 0b0000_0000_1110_1110 = some .ret := by decide
theorem test_decode_jmp : decodeWord .leadingDigit 0b0001_1001_1010_1011 = some (.jmpAddr 0x9AB) := by decide
theorem test_decode_call : decodeWord .leadingDigit 0b0010_1010_1011_1100 = some (.callAddr 0xABC) := by decide
theorem test_decode_se : decodeWord .leadingDigit 0b0011_1010_0101_1111 = some (.seVxByte 10 0x5F) := by decide
theorem test_decode_sne : decodeWord .leadingDigit 0b0100_1111_0000_0001 = some (.sneVxByte 15 0x01) := by decide
theorem test_decode_sevv : decodeWord .leadingDigitAndLowNibble 0b0101_0001_0010_0000 = some (.seVxVy 1 2) := by decide
theorem test_decode_ld : decodeWord .leadingDigit 0b0110_1011_0000_0111 = some (.ldVxByte 11 0x07) := by decide
/-- DEC15 and DEC16, both values of the parameter. -/
theorem test_decode_low_nibble :
    decodeWord .leadingDigit 0x5FFF = some (.seVxVy 15 15) ∧ decodeWord .leadingDigitAndLowNibble 0x5FFF = none := by
  decide
/-- DEC3, DEC7, DEC19, DEC21. -/
theorem test_decode_misses :
    decodeWord .leadingDigit 0x00E1 = none ∧ decodeWord .leadingDigit 0xE0E0 = none ∧
      decodeWord .leadingDigit 0x7000 = none ∧ decodeWord .leadingDigit 0xFFFF = none := by decide
theorem test_decode_bytes_high_first :
    (match decodeBytes .leadingDigit [0x6A, 0x05, 0x12] with | .ok p => some p | .error _ => none) =
      some (.ldVxByte 10 5, [0x12]) := by decide
theorem test_decode_bytes_truncated :
    (match decodeBytes .leadingDigit [0x6A] with | .ok _ => none | .error e => some e) = some (.truncated 1) := by decide
theorem test_table_word : decodeTableWord 16 0x2ABC = some (.callAddr 0xABC) ∧ decodeTableWord 16 0x8000 = none := by decide
theorem test_encode_words :
    encode (.jmpAddr 0x9AB) = 0x19AB ∧ encode (.seVxVy 1 2) = 0x5120 ∧ encode (.ldVxByte 0xA 0x05) = 0x6A05 := by decide
/-- Port equations of R79 on 0x5120. -/
theorem test_decoder_ports :
    decoderPorts .leadingDigit 0x5120 = ⟨true, 6, 2, 1, 2, 0x5120⟩ ∧ (decoderPorts .leadingDigit 0x8120).hit = false := by
  decide

/-! ## The fetch (FET1 to FET6) -/

theorem test_fetch_big_endian : (withOpcode 0x200 0x1234).opcodeAtPc = 0x1234 ∧
    (withOpcode 0x200 0x1234).byteAt 0x200 = 0x12 := by decide
theorem test_fetch_top : (nextOf (step (withOpcode 0xFFE 0x00E0))).map (·.pc) = some 0x1000 := by decide
theorem test_fetch_odd : (nextOf (step (withOpcode 0x201 0x6A05))).map (fun s => (s.pc, s.readV 10)) = some (0x203, 5) := by
  decide
theorem test_fetch_outside : faultOf (step (atPc 0xFFFF)) = some (.fetchOob 0xFFFF (atPc 0xFFFF)) := by decide

/-! ## The instructions, two vectors each at most -/

/-- E10. -/
theorem test_cls : (nextOf (exec .cls (atPc 0x300))).map (fun s => (s.outputs, s.pc)) = some ([.clearScreen], 0x300) := by decide
/-- E6. -/
theorem test_ret : (nextOf (exec .ret ((State.reset.setSlot 0 0xFFF).setDepth 1))).map (fun s => (s.pc, s.slot 0, s.sp)) =
    some (0xFFF, 0, -1) := by decide
/-- CF3. -/
theorem test_ret_empty : faultOf (exec .ret (atPc 0x500)) = some (.emptyStack (atPc 0x500)) := by decide
/-- CF6. -/
theorem test_jmp : (nextOf (exec (.jmpAddr 0xFFF) (atPc 0x300))).map (·.pc) = some 0xFFF := by decide
/-- CF8. -/
theorem test_call : (nextOf (exec (.callAddr 0x400) ((atPc 0x300).setDepth 15))).map (fun s => (s.sp, s.slot 15, s.pc)) =
    some (15, 0x300, 0x400) := by decide
/-- CF9. -/
theorem test_call_full : faultOf (exec (.callAddr 0x400) fullStack) = some (.fullStack fullStack) := by decide
/-- E7 and E8. -/
theorem test_se : (nextOf (exec (.seVxByte 4 0xAA) (State.reset.writeV 4 0xAA))).map (·.pc) = some 0x202 ∧
    (nextOf (exec (.seVxByte 4 0xAB) (State.reset.writeV 4 0xAA))).map (·.pc) = some 0x200 := by decide
/-- S10 and S11, the three policies. -/
theorem test_se_policies :
    (nextOf (exec (.seVxByte 0 1) (withPolicy .onSkipOnly (atPc 0x1000)))).isSome = true ∧
      faultOf (exec (.seVxByte 0 1) (withPolicy .zeroDeltaOnNoSkip (atPc 0x1000))) =
        some (.pcOverflow 0x1000 0 (withPolicy .zeroDeltaOnNoSkip (atPc 0x1000))) ∧
      faultOf (exec (.seVxByte 0 1) (withPolicy .checkAlways (atPc 0xFFE))) =
        some (.pcOverflow 0xFFE 2 (withPolicy .checkAlways (atPc 0xFFE))) := by decide
/-- S4 and S5. -/
theorem test_sne : (nextOf (exec (.sneVxByte 3 0x11) ((atPc 0x300).writeV 3 0x10))).map (·.pc) = some 0x302 ∧
    (nextOf (exec (.sneVxByte 3 0x10) ((atPc 0x300).writeV 3 0x10))).map (·.pc) = some 0x300 := by decide
/-- S13. -/
theorem test_sne_overflow : faultOf (exec (.sneVxByte 0 1) (atPc 0xFFE)) = some (.pcOverflow 0xFFE 2 (atPc 0xFFE)) := by decide
/-- S7. -/
theorem test_sevv : (nextOf (exec (.seVxVy 1 2) (((atPc 0x400).writeV 1 7).writeV 2 8))).map (·.pc) = some 0x400 := by decide
/-- S8. -/
theorem test_sevv_same : (nextOf (exec (.seVxVy 5 5) ((atPc 0x400).writeV 5 0x9C))).map (·.pc) = some 0x402 := by decide
/-- LD2. -/
theorem test_ld : (nextOf (exec (.ldVxByte 15 0xFF) State.reset)).map (fun s => (s.readV 15, s.readV 14, s.pc)) =
    some (0xFF, 0, 0x200) := by decide
/-- S12: 0xFFD + 2 is still allowed. -/
theorem test_skip_at_ceiling : (nextOf (exec (.seVxByte 0 0) (atPc 0xFFD))).map (·.pc) = some 0xFFF := by decide

/-! ## The step (N2, N4, N6, N7) -/

theorem test_step_skip : (nextOf (step ((withOpcode 0x200 0x34AA).writeV 4 0xAA))).map (·.pc) = some 0x204 := by decide
theorem test_step_decode_error : (faultOf (step (withOpcode 0x200 0xFFFF))).map (fun f => (f.code, f.after.pc)) =
    some (1, 0x202) := by decide
theorem test_step_call : (nextOf (step (withOpcode 0x200 0x2208))).map (fun s => (s.slot 0, s.sp, s.pc)) =
    some (0x202, 0, 0x208) := by decide
theorem test_step_overflow : (faultOf (step (withOpcode 0xFFC 0x3000))).map (fun f => (f.code, f.info, f.after.pc)) =
    some (5, 0x00020FFE, 0xFFE) := by decide
theorem test_fetch_word : (nextOf (step (State.reset.withFetchWord 16 0x6A05))).map (·.readV 10) = some 5 := by decide
theorem test_fetch_word_repositions : ((atPc 0x1000).withFetchWord 16 0x00E0).pc = 0x200 := by decide

/-! ## `execute`, the ports and the assembler -/

/-- ARI3: the count is checked before the stack. -/
theorem test_arity_first : (faultOf (execute ⟨.ret, [7]⟩ State.reset)).map (fun f => (f.code, f.info)) =
    some (2, 0x00000101) := by decide
/-- ARI10. -/
theorem test_wide_operand : refusalOf (execute ⟨.jmpAddr, [0x1000]⟩ State.reset) =
    some (.operandOutOfRange ⟨.jmpAddr, [0x1000]⟩) := by decide
theorem test_port_execute : transact ⟨2, 7, 2, 0xA, 0x05⟩ State.reset =
    .answered ⟨true, false, 0, 0, none, false⟩ (State.reset.writeV 10 5) := by decide
theorem test_port_wide_register : transact ⟨2, 7, 2, 0x1A, 0x05⟩ State.reset =
    .refused (.operandOutOfRange ⟨.ldVxByte, [0x1A, 0x05]⟩) := by decide
theorem test_port_cls : transact ⟨1, 0, 0, 0, 0⟩ (withOpcode 0x200 0x00E0) =
    .answered ⟨true, false, 0, 0, none, true⟩ (((withOpcode 0x200 0x00E0).setPc 0x202).emit .clearScreen) := by decide
theorem test_port_read_opcode : transact ⟨3, 0, 0, 0, 0⟩ (withOpcode 0x200 0x89AB) =
    .answered ⟨true, false, 0, 0, some 0x89AB, false⟩ ((withOpcode 0x200 0x89AB).setPc 0x202) := by decide
theorem test_asm_text : AsmLine.text (.instr (.ldVxByte 10 5)) =
    ['L', 'D', '_', 'V', 'X', '_', 'B', 'Y', 'T', 'E', ' ', 'V', 'A', ',', ' ', '0', 'x', '0', '5'] := by decide
theorem test_asm_read : readLine ['S', 'E', '_', 'V', 'X', '_', 'V', 'Y', ' ', 'V', '0', ',', ' ', 'V', 'F'] =
    some (.instr (.seVxVy 0 15)) := by decide
theorem test_asm_refuses : readLine ['R', 'E', 'T', ' '] = none := by decide
theorem test_assemble : assemble [.instr (.callAddr 0x208), .word 0x1F] = [0x22, 0x08, 0x00, 0x1F] := by decide
theorem test_host_reset_keeps_outputs : (hostReset (State.reset.emit .clearScreen)).outputs = [.clearScreen] := by decide
theorem test_put_zero_removes : Memory.put (Memory.put [] 5 1) 5 0 = [] := by decide

/-! ## Witnesses: a state and operands that meet the hypotheses of each statement, clause by clause -/

theorem witness_AtMostOneEntryMatches :
    (catalogEntry .leadingDigit .jmpAddr) ∈ instructionTable .leadingDigit ∧
      (catalogEntry .leadingDigit .jmpAddr).hits 0x1FFF = true ∧ (catalogEntry .leadingDigit .jmpAddr).hits 0x2000 = false ∧
      (catalogEntry .leadingDigitAndLowNibble .seVxVy).hits 0x5FF0 = true := by decide
/-- For DecodedOperandsFitTheirKinds and DecoderPortsCarryDecodedCall: a call and a miss. -/
theorem witness_DecodedOperandsFitTheirKinds : decodeCall .leadingDigit 0x3FFF = some ⟨.seVxByte, [15, 0xFF]⟩ ∧
    decodeCall .leadingDigit 0x0000 = none := by decide
theorem witness_WideDecoderInputIsRefused :
    0xFFFF < 0x10000 ∧ decodeWord .leadingDigit (BitVec.ofNat 16 0x6FFF) = some (.ldVxByte 15 0xFF) ∧
      decodeWord .leadingDigit (BitVec.ofNat 16 0xFFFF) = none := by decide
theorem witness_FetchAdvancesOrFaults : (atPc 0xFFE).pc.toNat ≤ 0xFFE ∧ 0xFFE < (atPc 0xFFF).pc.toNat := by decide
theorem witness_StepRunsDecodedInstruction :
    (withOpcode 0xFFE 0x00E0).pc.toNat ≤ 0xFFE ∧
      decodeWord (withOpcode 0xFFE 0x00E0).params.seVxVyMask (withOpcode 0xFFE 0x00E0).opcodeAtPc = some .cls := by decide
theorem witness_NextComposesFetchDecodeExecute :
    readOpcode (atPc 0xFFF) = .error (.fetchOob 0xFFF (atPc 0xFFF)) ∧
      readOpcode (atPc 0xFFE) = .ok (0, atPc 0x1000) ∧ decodeCall .leadingDigit 0 = none ∧
      readOpcode (withOpcode 0x200 0x00E0) = .ok (0x00E0, (withOpcode 0x200 0x00E0).setPc 0x202) ∧
      decodeCall .leadingDigit 0x00E0 = some ⟨.cls, []⟩ := by
  exact ⟨rfl, rfl, by decide, rfl, by decide⟩
theorem witness_UnmatchedWordRaisesDecode : (atPc 0xFFE).pc.toNat ≤ 0xFFE ∧
    ∀ e ∈ instructionTable (atPc 0xFFE).params.seVxVyMask, (atPc 0xFFE).opcodeAtPc &&& e.mask ≠ e.pattern := by decide
/-- For StepErrorsFollowTheOrder: each of the five errors a step can report. -/
theorem witness_StepErrorsFollowTheOrder :
    step (atPc 0xFFF) = .fault (.fetchOob 0xFFF (atPc 0xFFF)) ∧
      step (atPc 0xFFE) = .fault (.decode 0 (atPc 0x1000)) ∧
      step (withOpcode 0x200 0x00EE) = .fault (.emptyStack ((withOpcode 0x200 0x00EE).setPc 0x202)) ∧
      step ((withOpcode 0x200 0x2000).setDepth 16) = .fault (.fullStack (((withOpcode 0x200 0x2000).setDepth 16).setPc 0x202)) ∧
      step (withOpcode 0xFFC 0x3000) = .fault (.pcOverflow 0xFFE 2 ((withOpcode 0xFFC 0x3000).setPc 0xFFE)) := by
  exact ⟨rfl, rfl, rfl, rfl, rfl⟩
theorem witness_WrongCountRaisesArity : [1].length ≠ Identity.cls.arity ∧ [1].length ≠ Identity.ret.arity ∧
    [1, 2].length ≠ Identity.jmpAddr.arity ∧ ([] : List Nat).length ≠ Identity.callAddr.arity ∧
    [1].length ≠ Identity.seVxByte.arity ∧ [1, 2, 3].length ≠ Identity.sneVxByte.arity ∧
    ([] : List Nat).length ≠ Identity.seVxVy.arity ∧ [5].length ≠ Identity.ldVxByte.arity := by decide
theorem witness_WideOperandIsRefused : [0x1000].length = Identity.jmpAddr.arity ∧
    ∃ p ∈ Identity.jmpAddr.kinds.zip [0x1000], 2 ^ p.1.width ≤ p.2 := by decide
theorem witness_ExecuteSelectsTheArm : [15, 0xFF].length = Identity.ldVxByte.arity ∧
    ∀ p ∈ Identity.ldVxByte.kinds.zip [15, 0xFF], p.2 < 2 ^ p.1.width := by decide
theorem witness_ExecuteErrorsAreAllOrNothing :
    exec .ret State.reset = .fault (.emptyStack State.reset) ∧
      execute ⟨.cls, [5]⟩ State.reset = .fault (.arity .cls 0 1 State.reset) := by
  exact ⟨rfl, rfl⟩
theorem witness_RetPopsReturnAddress : State.reset.sp = -1 ∧ (State.reset.setDepth 1).sp = ((0 : Fin 16).val : Int) ∧
    (State.reset.setDepth 16).sp = ((15 : Fin 16).val : Int) := by decide
theorem witness_CallPushesPcAndJumps : fullStack.sp = 15 ∧ State.reset.sp + 1 = ((0 : Fin 16).val : Int) ∧
    (State.reset.setDepth 15).sp + 1 = ((15 : Fin 16).val : Int) := by decide
/-- For SeVxByteSkipsOnEqual, SneVxByteSkipsOnDifferent and SeVxVySkipsOnEqual: a state for each field of `SkipContract`, at the values where the fields meet. -/
theorem witness_SkipContract :
    (decide ((atPc 0xFFD).readV 0 = 0) = true ∧ (atPc 0xFFD).pc.toNat + 2 ≤ 0xFFF) ∧
      (decide ((atPc 0xFFE).readV 0 = 0) = true ∧ 0xFFF < (atPc 0xFFE).pc.toNat + 2) ∧
      (decide ((atPc 0x1000).readV 0 = 1) = false ∧ (atPc 0x1000).params.skipOverflowPolicy = .onSkipOnly) ∧
      (withPolicy .zeroDeltaOnNoSkip (atPc 0xFFF)).pc.toNat ≤ 0xFFF ∧
      0xFFF < (withPolicy .zeroDeltaOnNoSkip (atPc 0x1000)).pc.toNat ∧
      (withPolicy .checkAlways (atPc 0xFFD)).pc.toNat + 2 ≤ 0xFFF ∧
      0xFFF < (withPolicy .checkAlways (atPc 0xFFE)).pc.toNat + 2 := by decide
/-- The same for SNE_VX_BYTE and SE_VX_VY: each condition true and false. -/
theorem witness_SkipConditions :
    decide ((atPc 0xFFD).readV 0 ≠ 1) = true ∧ decide ((atPc 0xFFD).readV 0 ≠ 0) = false ∧
      decide ((atPc 0xFFD).readV 0 = (atPc 0xFFD).readV 1) = true ∧
      decide (((atPc 0xFFD).writeV 1 7).readV 0 = ((atPc 0xFFD).writeV 1 7).readV 1) = false := by decide
theorem witness_SkipsCompleteBelowCeiling : (atPc 0xFFD).pc.toNat ≤ 0xFFD := by decide
theorem witness_BoundedAdvanceChecksBeforeCommit :
    0xFFF < (atPc 0xFFE).pc.toNat + 2 ∧ (atPc 0xFFD).pc.toNat + 2 ≤ 0xFFF := by decide
/-- The three ways a skip overflows: condition true, CHECK_ALWAYS with it false, ZERO_DELTA_ON_NO_SKIP with it false. -/
theorem witness_PcOverflowCarriesPcAndDelta :
    exec (.seVxByte 0 0) (atPc 0xFFE) = .fault (.pcOverflow 0xFFE 2 (atPc 0xFFE)) ∧
      exec (.sneVxByte 0 0) (withPolicy .checkAlways (atPc 0xFFE)) =
        .fault (.pcOverflow 0xFFE 2 (withPolicy .checkAlways (atPc 0xFFE))) ∧
      exec (.sneVxByte 0 0) (withPolicy .zeroDeltaOnNoSkip (atPc 0x1000)) =
        .fault (.pcOverflow 0x1000 0 (withPolicy .zeroDeltaOnNoSkip (atPc 0x1000))) ∧
      0xFFF < (atPc 0xFFE).pc.toNat + 2 := by
  exact ⟨rfl, rfl, rfl, by decide⟩
/-- Each of the three skips, the first at the greatest PC, with the condition true, false and true. -/
theorem witness_StepOverSkipAdvancesByFourOrTwo :
    ((withOpcode 0xFFB 0x3000).pc.toNat + 4 ≤ 0xFFF ∧
        decodeWord .leadingDigit (withOpcode 0xFFB 0x3000).opcodeAtPc = some (.seVxByte 0 0) ∧
        IsSkip true (.seVxByte 0 0) (withOpcode 0xFFB 0x3000)) ∧
      (decodeWord .leadingDigit (withOpcode 0x200 0x4000).opcodeAtPc = some (.sneVxByte 0 0) ∧
        IsSkip false (.sneVxByte 0 0) (withOpcode 0x200 0x4000)) ∧
      (decodeWord .leadingDigit (withOpcode 0x200 0x5010).opcodeAtPc = some (.seVxVy 0 1) ∧
        IsSkip true (.seVxVy 0 1) (withOpcode 0x200 0x5010)) :=
  ⟨⟨by decide, by decide, .inl ⟨0, 0, rfl, by decide⟩⟩, ⟨by decide, .inr (.inl ⟨0, 0, rfl, by decide⟩)⟩,
    ⟨by decide, .inr (.inr ⟨0, 1, rfl, by decide⟩)⟩⟩
theorem witness_JumpAndSkipFrame :
    exec (.jmpAddr 0x123) (atPc 0x300) = .next (atPc 0x123) ∧ exec (.seVxByte 0 0) (atPc 0xFFD) = .next (atPc 0xFFF) ∧
      exec (.sneVxByte 0 0) (atPc 0xFFE) = .next (atPc 0xFFE) ∧ exec (.seVxVy 1 1) (atPc 0x300) = .next (atPc 0x302) := by
  exact ⟨rfl, rfl, rfl, rfl⟩
theorem witness_CallAndRetFrame :
    exec (.callAddr 0x123) (atPc 0x300) = .next (((atPc 0x123).setSlot 0 0x300).setDepth 1) ∧
      exec .ret (((atPc 0x123).setSlot 0 0x300).setDepth 1) = .next (atPc 0x300) := by
  exact ⟨rfl, rfl⟩
theorem witness_LoadAndClsFrame :
    exec (.ldVxByte 15 7) State.reset = .next (State.reset.writeV 15 7) ∧
      exec .cls State.reset = .next (State.reset.emit .clearScreen) := by
  exact ⟨rfl, rfl⟩
theorem witness_CoreNeverWritesMemory :
    (stateAfter (step State.reset)).isSome = true ∧ (stateAfter (execute ⟨.cls, []⟩ State.reset)).isSome = true ∧
      readOpcode State.reset = .ok (0, atPc 0x202) := by
  exact ⟨rfl, rfl, rfl⟩
theorem witness_OnlyLoadWritesARegister :
    ∃ t, step (withOpcode 0x200 0x6F07) = .next t ∧ t.readV 15 ≠ (withOpcode 0x200 0x6F07).readV 15 :=
  ⟨_, rfl, by decide⟩
theorem witness_PcChangesOnlyAsListed :
    (∃ t, step (withOpcode 0x200 0x6F07) = .next t ∧ t.pc = 0x202) ∧
      (∃ t, step (withOpcode 0x200 0x3000) = .next t ∧ t.pc = 0x204) ∧
      (∃ t, step (withOpcode 0x200 0x1FFF) = .next t ∧ t.pc = 0xFFF) ∧
      (∃ t, step ((withOpcode 0x200 0x00EE).setDepth 16) = .next t ∧ t.pc = 0) :=
  ⟨⟨_, rfl, rfl⟩, ⟨_, rfl, rfl⟩, ⟨_, rfl, rfl⟩, ⟨_, rfl, rfl⟩⟩
/-- Two different states that differ only in an unused slot, at a CALL_ADDR that will overwrite the slot. -/
theorem witness_UnusedStackSlotsDoNotMatter :
    SameButUnusedSlots (withOpcode 0x200 0x2300) ((withOpcode 0x200 0x2300).setSlot 0 7) ∧
      withOpcode 0x200 0x2300 ≠ (withOpcode 0x200 0x2300).setSlot 0 7 := by
  refine ⟨⟨?_, rfl⟩, by decide⟩
  intro k hk
  have hsp : (withOpcode 0x200 0x2300).sp = -1 := by decide
  omega
theorem witness_GoodState : GoodState ((withOpcode 0x200 0x00EE).setSlot 0 0x1000 |>.setDepth 1) :=
  ⟨by decide, by decide, by decide⟩
theorem witness_StepKeepsInvariants :
    (stateAfter (step ((withOpcode 0x200 0x00EE).setSlot 0 0x1000 |>.setDepth 1))).map (·.pc) = some 0x1000 := by decide
/-- For SessionKeepsMemoryAndParams. -/
theorem witness_SessionKeepsMemoryAndParams : MemoryCanonical (withOpcode 0x200 0x6A05) := by decide
theorem witness_HostWriteReadsBack :
    Element.inDomain .sp (-1) = true ∧ Element.inDomain .sp 15 = true ∧ Element.inDomain (.mem 0xFFF) 255 = true ∧
      Element.inDomain .pc 0xFFFF = true := by decide
theorem witness_HostWriteLeavesOtherElements :
    (∃ t, hostWrite (.mem 0xFFF) 255 State.reset = .next t) ∧ Element.mem 0xFFE ≠ Element.mem 0xFFF :=
  ⟨⟨_, rfl⟩, by decide⟩
theorem witness_HostWriteOutsideDomainIsRefused :
    (Element.sp = .sp ∧ ((-2 : Int) < -1 ∨ (15 : Int) < -2)) ∧ (Element.sp = .sp ∧ ((16 : Int) < -1 ∨ (15 : Int) < 16)) ∧
      (Element.dt ≠ .sp ∧ ((256 : Int) < 0 ∨ (2 : Int) ^ Element.dt.width ≤ 256)) := by decide
theorem witness_StoredInstructionRunsNext : MemoryCanonical (atPc 0xFFE) ∧ (atPc 0xFFE).pc.toNat ≤ 0xFFE := by decide
/-- P1's end: `JMP_ADDR 0x208` at 0x208. -/
theorem witness_SelfJumpLeavesStateUnchanged : AtSelfJump (withOpcode 0x208 0x1208) :=
  ⟨by decide, 0x208, by decide, by decide⟩
/-- An error and a next state; `witness_StepErrorsFollowTheOrder` shows a step for each of the five error kinds. -/
theorem witness_PortReportsTheStep :
    (⟨1, 0, 0, 0, 0⟩ : PortRequest).op = 1 ∧ step State.reset = .fault (.decode 0 (atPc 0x202)) ∧
      step (withOpcode 0x200 0x1300) = .next ((withOpcode 0x200 0x1300).setPc 0x300) := by
  exact ⟨rfl, rfl, rfl⟩
theorem witness_ExactlyOneOfSeAndSneSkips : (atPc 0xFFD).pc.toNat ≤ 0xFFD := by decide
theorem witness_CallThenRetComesBack : (State.reset.setDepth 15).sp + 1 = ((15 : Fin 16).val : Int) := by decide
theorem witness_StoredOpcodeIsFetchedNext : MemoryCanonical (atPc 0xFFE) ∧ (atPc 0xFFE).pc.toNat ≤ 0xFFE := by decide
theorem witness_StepErrorKeepsOnlyFetchAdvance :
    step (atPc 0xFFF) = .fault (.fetchOob 0xFFF (atPc 0xFFF)) ∧ step (atPc 0xFFE) = .fault (.decode 0 (atPc 0x1000)) := by
  exact ⟨rfl, rfl⟩
/-- A one-word program at the very top of memory fits. -/
theorem witness_LoadedProgramReadsBack : MemoryCanonical State.reset ∧
    0xFFE + 2 * [AsmLine.instr .cls].length ≤ Config.memSize ∧ [AsmLine.instr .cls][0]? = some (.instr .cls) ∧
    (0xFFD < 0xFFE ∨ 0xFFE + 2 * [AsmLine.instr .cls].length ≤ 0xFFD) := by decide
theorem test_image_outside_is_refused : refusalOf (loadProgram 0xFFF [.instr .cls] State.reset) =
    some (.imageOutsideMemory 0xFFF 2) := by decide
/-- The first step of P1's program, loaded by the host, runs without an error. -/
theorem witness_ErrorFree : ErrorFree 1 (withOpcode 0x200 0x6A05) := ⟨_, rfl⟩

end Sys2Proof.Tests
end

section
/-! ## The outcomes of the arms and of the step -/

namespace Sys2Proof.Machine

/-- R105: a skip ends in a next state or in PC_OVERFLOW. -/
theorem skipIf_ne_refused (cond : Bool) (s : State) (r : Refusal) : skipIf cond s ≠ .refused r := by
  rcases skipIf_cases cond s with ⟨-, -, e⟩ | ⟨-, -, e⟩ | ⟨_, -, -, e⟩ <;> simp [e]

/-- R100: every arm gives its instruction a meaning. Only RET, CALL_ADDR and the skips can end in anything but a next
state, and there it is an error. -/
theorem exec_ne_refused (i : Instr) (s : State) (r : Refusal) : exec i s ≠ .refused r := by
  cases i with
  | cls => simp [exec, execCls]
  | ret => rcases execRet_cases s with ⟨-, e⟩ | ⟨_, -, e⟩ <;> simp [exec, e]
  | jmpAddr a => simp [exec, execJmpAddr]
  | callAddr a => rcases execCallAddr_cases a s with ⟨-, e⟩ | ⟨_, -, e⟩ <;> simp [exec, e]
  | seVxByte x kk => exact skipIf_ne_refused _ s r
  | sneVxByte x kk => exact skipIf_ne_refused _ s r
  | seVxVy x y => exact skipIf_ne_refused _ s r
  | ldVxByte x kk => simp [exec, execLdVxByte]

/-- R107: a step ends in the fetch's or the decoder's error, or as the decoded instruction does. -/
theorem step_ne_refused (s : State) (r : Refusal) : step s ≠ .refused r := by
  unfold step
  rcases step_cases s with ⟨-, e⟩ | ⟨-, -, e⟩ | ⟨i, -, -, e⟩ <;> rw [e]
  · nofun
  · nofun
  · exact exec_ne_refused i _ r

/-- Settles O16: no arm of `exec` answers a refusal, and a step answers one only where its instruction's arm does. -/
theorem nothingIsRefused : Obligations.NothingIsRefused :=
  fun s r => ⟨fun i => exec_ne_refused i s r, step_ne_refused s r⟩

end Sys2Proof.Machine
end

section
/-! ## The step in equations -/

namespace Sys2Proof.Machine

/-- R43: a step with PC above 0xFFE fetches nothing. -/
theorem step_of_pc_above {s : State} (h : 0xFFE < s.pc.toNat) : step s = .fault (.fetchOob s.pc s) := by
  rcases step_cases s with ⟨-, e⟩ | ⟨hle, -, -⟩ | ⟨_, hle, -, -⟩
  · exact e
  · omega
  · omega

/-- R107: a step with PC at most 0xFFE decodes and executes the opcode at PC on the state the fetch leaves. -/
theorem step_of_pc_le {s : State} (h : s.pc.toNat ≤ 0xFFE) :
    step s = decodeAndExecute s.opcodeAtPc (s.setPc (s.pc + 2)) := by
  rcases readOpcode_cases s with ⟨hgt, -⟩ | ⟨-, e⟩
  · omega
  · simp only [step, next, e, advanced_eq_add]

/-- The fetch's 2 does not wrap PC: its sum is at most 0x1000 (R22). -/
theorem toNat_pc_add_two {s : State} (h : s.pc.toNat ≤ 0xFFE) : (s.pc + 2).toNat = s.pc.toNat + 2 := by
  rw [← advanced_eq_add, fetched_pc h]

/-- A completed step is a completed instruction on the state the fetch leaves. -/
theorem exec_of_step_eq_next {s t : State} (h : step s = .next t) :
    ∃ i, decodeWord s.params.seVxVyMask s.opcodeAtPc = some i ∧ exec i (s.setPc (s.pc + 2)) = .next t := by
  unfold step at h
  rcases step_cases s with ⟨-, e⟩ | ⟨-, -, e⟩ | ⟨i, -, hd, e⟩ <;> rw [e] at h
  · cases h
  · cases h
  · exact ⟨i, hd, advanced_eq_add s ▸ h⟩

/-- Every state a step can leave: as it was, or with PC past the opcode, or what the instruction leaves from there. -/
theorem step_after_cases {s t : State} (h : stateAfter (step s) = some t) :
    t = s ∨ (s.pc.toNat ≤ 0xFFE ∧
      (t = s.setPc (s.pc + 2) ∨ ∃ i, stateAfter (exec i (s.setPc (s.pc + 2))) = some t)) := by
  unfold step at h
  rcases step_cases s with ⟨-, e⟩ | ⟨hle, -, e⟩ | ⟨i, hle, -, e⟩ <;> rw [e] at h
  · cases h
    exact .inl rfl
  · cases h
    exact .inr ⟨hle, .inl (congrArg s.setPc (advanced_eq_add s))⟩
  · exact .inr ⟨hle, .inr ⟨i, advanced_eq_add s ▸ h⟩⟩

end Sys2Proof.Machine
end

section
/-! ## Simulation: what no instruction sees makes no difference (spec/10_state.md R24, R27, R30) -/

namespace Sys2Proof.Machine

open Sys2Proof.Safety

/-- Two answers of one kind, with the same payload if an error, whose states are related. ARITY and the refusals are
left out: no step answers them. -/
inductive SameAnswer (R : State → State → Prop) : Result → Result → Prop
  | next {s t : State} (h : R s t) : SameAnswer R (.next s) (.next t)
  | decode {s t : State} (w : Word) (h : R s t) : SameAnswer R (.fault (.decode w s)) (.fault (.decode w t))
  | emptyStack {s t : State} (h : R s t) : SameAnswer R (.fault (.emptyStack s)) (.fault (.emptyStack t))
  | fullStack {s t : State} (h : R s t) : SameAnswer R (.fault (.fullStack s)) (.fault (.fullStack t))
  | pcOverflow {s t : State} (pc : Word) (delta : Nat) (h : R s t) :
      SameAnswer R (.fault (.pcOverflow pc delta s)) (.fault (.pcOverflow pc delta t))
  | fetchOob {s t : State} (pc : Word) (h : R s t) : SameAnswer R (.fault (.fetchOob pc s)) (.fault (.fetchOob pc t))

/-- The same answer is the same outcome: equal payloads give equal codes and equal `err_info` words (R200). -/
theorem SameAnswer.sameOutcome {R : State → State → Prop} {a b : Result} (h : SameAnswer R a b) :
    SameOutcome R a b := by
  cases h with
  | next h => exact h
  | decode w h => exact ⟨rfl, rfl, h⟩
  | emptyStack h => exact ⟨rfl, rfl, h⟩
  | fullStack h => exact ⟨rfl, rfl, h⟩
  | pcOverflow pc delta h => exact ⟨rfl, rfl, h⟩
  | fetchOob pc h => exact ⟨rfl, rfl, h⟩

/-- Where the relation is a change `g` of the state, the second answer is the first with the change made to it. -/
theorem SameAnswer.eq_mapResult {g : State → State} {a b : Result} (h : SameAnswer (fun s t => t = g s) a b) :
    b = mapResult g a := by
  cases h <;> subst_vars <;> rfl

/-- What makes a relation a simulation: related states agree on all that the fetch, the decoder and the arms read, and
every update an instruction makes keeps them related. -/
structure StepSimulation (R : State → State → Prop) : Prop where
  mem {s t : State} : R s t → s.mem = t.mem
  pc {s t : State} : R s t → s.pc = t.pc
  v {s t : State} : R s t → s.v = t.v
  depth {s t : State} : R s t → s.depth = t.depth
  params {s t : State} : R s t → s.params = t.params
  setPc {s t : State} (w : Word) : R s t → R (s.setPc w) (t.setPc w)
  emit {s t : State} (e : OutputEvent) : R s t → R (s.emit e) (t.emit e)
  writeV {s t : State} (x : RegNum) (b : Byte) : R s t → R (s.writeV x b) (t.writeV x b)
  popInto {s t : State} (k : Fin Config.stackDepth) :
    R s t → s.sp = (k.val : Int) → R (s.popInto k) (t.popInto k)
  pushAndJump {s t : State} (k : Fin Config.stackDepth) (w : Word) :
    R s t → s.sp + 1 = (k.val : Int) → R (s.pushAndJump k w) (t.pushAndJump k w)

namespace StepSimulation

variable {R : State → State → Prop} (sim : StepSimulation R) {s t : State} (h : R s t)
include sim h

theorem readV_eq (x : RegNum) : s.readV x = t.readV x := by
  simp only [State.readV, sim.v h]

theorem opcodeAtPc_eq : s.opcodeAtPc = t.opcodeAtPc := by
  simp only [State.opcodeAtPc, State.byteAt, sim.mem h, sim.pc h]

theorem topSlot_eq : s.topSlot = t.topSlot := by
  unfold State.topSlot
  rw [sim.depth h]

theorem freeSlot_eq : s.freeSlot = t.freeSlot := by
  unfold State.freeSlot
  rw [sim.depth h]

theorem advanced_eq (delta : Nat) : s.advanced delta = t.advanced delta := by
  simp only [State.advanced, sim.pc h]

/-- The bounded increment reads PC only (R104). -/
theorem boundedAdvance (delta : Nat) :
    SameAnswer R (Machine.boundedAdvance delta s) (Machine.boundedAdvance delta t) := by
  simp only [Machine.boundedAdvance, sim.advanced_eq h, sim.pc h]
  by_cases hover : t.advanced delta > Config.pcCeiling
  · rw [if_pos hover, if_pos hover]
    exact .pcOverflow _ _ h
  · rw [if_neg hover, if_neg hover]
    exact .next (sim.setPc _ h)

/-- A skip reads PC and the policy (R105). -/
theorem skipIf (cond : Bool) : SameAnswer R (Machine.skipIf cond s) (Machine.skipIf cond t) := by
  simp only [Machine.skipIf, sim.params h]
  cases t.params.skipOverflowPolicy with
  | onSkipOnly =>
    cases cond with
    | false => exact .next h
    | true => exact sim.boundedAdvance h 2
  | zeroDeltaOnNoSkip => exact sim.boundedAdvance h _
  | checkAlways =>
    simp only [sim.advanced_eq h, sim.pc h]
    by_cases hover : t.advanced 2 > Config.pcCeiling
    · rw [if_pos hover, if_pos hover]
      exact .pcOverflow _ _ h
    · rw [if_neg hover, if_neg hover]
      cases cond with
      | false => exact .next h
      | true => exact .next (sim.setPc _ h)

/-- Every arm answers the same from related states. -/
theorem exec (i : Instr) : SameAnswer R (Machine.exec i s) (Machine.exec i t) := by
  cases i with
  | cls => exact .next (sim.emit _ h)
  | ret =>
    simp only [Machine.exec, execRet, ← sim.topSlot_eq h]
    cases htop : s.topSlot with
    | none => exact .emptyStack h
    | some k => exact .next (sim.popInto k h (State.topSlot_eq_some.mp htop))
  | jmpAddr a => exact .next (sim.setPc _ h)
  | callAddr a =>
    simp only [Machine.exec, execCallAddr, ← sim.freeSlot_eq h]
    cases hfree : s.freeSlot with
    | none => exact .fullStack h
    | some k => exact .next (sim.pushAndJump k _ h (State.freeSlot_eq_some.mp hfree))
  | seVxByte x kk =>
    simp only [Machine.exec, execSeVxByte, registerEqByte, registerValue, sim.readV_eq h]
    exact sim.skipIf h _
  | sneVxByte x kk =>
    simp only [Machine.exec, execSneVxByte, registerNeByte, registerValue, sim.readV_eq h]
    exact sim.skipIf h _
  | seVxVy x y =>
    simp only [Machine.exec, execSeVxVy, registerEqRegister, registerValue, sim.readV_eq h]
    exact sim.skipIf h _
  | ldVxByte x kk => exact .next (sim.writeV x _ h)

theorem decodeAndExecute (w : Word) :
    SameAnswer R (Machine.decodeAndExecute w s) (Machine.decodeAndExecute w t) := by
  simp only [Machine.decodeAndExecute, sim.params h]
  cases decodeWord t.params.seVxVyMask w with
  | none => exact .decode w h
  | some i => exact sim.exec h i

/-- Related states step to the same answer. -/
theorem step : SameAnswer R (Machine.step s) (Machine.step t) := by
  have hpc := sim.pc h
  rcases Nat.lt_or_ge 0xFFE s.pc.toNat with habove | hle
  · rw [step_of_pc_above habove, step_of_pc_above (hpc ▸ habove), hpc]
    exact .fetchOob _ h
  · rw [step_of_pc_le hle, step_of_pc_le (hpc ▸ hle), sim.opcodeAtPc_eq h, hpc]
    exact sim.decodeAndExecute (sim.setPc _ h) _

end StepSimulation

/-- No operation reads I, DT or ST, and every update keeps them (R24, R27). -/
theorem withUnread_stepSimulation (i : Word) (dt st : Byte) :
    StepSimulation (fun s t => t = withUnread i dt st s) where
  mem := by rintro s _ rfl; rfl
  pc := by rintro s _ rfl; rfl
  v := by rintro s _ rfl; rfl
  depth := by rintro s _ rfl; rfl
  params := by rintro s _ rfl; rfl
  setPc := by rintro s _ w rfl; rfl
  emit := by rintro s _ e rfl; rfl
  writeV := by rintro s _ x b rfl; rfl
  popInto := by rintro s _ k rfl -; rfl
  pushAndJump := by rintro s _ k w rfl -; rfl

/-- Settles O41: the change of I, DT and ST is a simulation. -/
theorem unreadRegistersDoNotMatter : Obligations.UnreadRegistersDoNotMatter :=
  fun _ i dt st => ((withUnread_stepSimulation i dt st).step rfl).eq_mapResult

/-- States that differ at most in slots above SP: the second is the first with another stack that holds the same up to
SP. -/
theorem sameButUnusedSlots_iff {s t : State} :
    SameButUnusedSlots s t ↔ ∃ stack : Vector Word Config.stackDepth, t = { s with stack := stack } ∧
      ∀ k : Fin Config.stackDepth, (k.val : Int) ≤ s.sp → s.slot k = stack[k.val] := by
  constructor
  · rintro ⟨hslots, ht⟩
    exact ⟨t.stack, ht.symm, hslots⟩
  · rintro ⟨stack, rfl, hslots⟩
    exact ⟨hslots, rfl⟩

/-- No operation reads a slot above SP: RET reads and frees the slot at SP, CALL_ADDR overwrites the slot above it with
PC (R30, R121, R123). -/
theorem sameButUnusedSlots_stepSimulation : StepSimulation SameButUnusedSlots where
  mem h := (congrArg State.mem h.2 :)
  pc h := (congrArg State.pc h.2 :)
  v h := (congrArg State.v h.2 :)
  depth h := (congrArg State.depth h.2 :)
  params h := (congrArg State.params h.2 :)
  setPc w h := ⟨h.1, congrArg (State.setPc · w) h.2⟩
  emit e h := ⟨h.1, congrArg (State.emit · e) h.2⟩
  writeV x b h := ⟨h.1, congrArg (State.writeV · x b) h.2⟩
  popInto {s t} k h hsp := by
    have hpopped : s.slot k = t.slot k := h.1 k (by omega)
    obtain ⟨stack, rfl, -⟩ := sameButUnusedSlots_iff.mp h
    refine ⟨fun j hj => ?_, congrArg (State.setPc (State.popInto { s with stack := stack } k)) hpopped⟩
    rw [State.sp_popInto] at hj
    rw [State.slot_popInto, State.slot_popInto, h.1 j (by omega)]
  pushAndJump {s t} k w h hsp := by
    obtain ⟨stack, rfl, -⟩ := sameButUnusedSlots_iff.mp h
    refine ⟨fun j hj => ?_, rfl⟩
    rw [State.sp_pushAndJump] at hj
    rw [State.slot_pushAndJump, State.slot_pushAndJump]
    by_cases hjk : j = k
    · rw [if_pos hjk, if_pos hjk]
    · have hne : j.val ≠ k.val := fun e => hjk (Fin.ext e)
      rw [if_neg hjk, if_neg hjk, h.1 j (by omega)]

/-- Settles O42: the relation is a simulation. -/
theorem unusedStackSlotsDoNotMatter : Obligations.UnusedStackSlotsDoNotMatter :=
  fun _ _ h => (sameButUnusedSlots_stepSimulation.step h).sameOutcome

end Sys2Proof.Machine
end

section
/-! ## Invariants of the step and of a host session (spec/10_state.md R22, R26, R31) -/

namespace Sys2Proof.Machine

open Sys2Proof.Safety

/-! ### Every update an instruction makes keeps the three invariants -/

theorem goodState_setPc {s : State} {p : Word} (h : GoodState s) (hp : p.toNat ≤ Config.memSize) :
    GoodState (s.setPc p) :=
  ⟨h.memory, h.stack, hp, h.reach.2⟩

theorem goodState_emit {s : State} (e : OutputEvent) (h : GoodState s) : GoodState (s.emit e) :=
  ⟨h.memory, h.stack, h.reach⟩

theorem goodState_writeV {s : State} (x : RegNum) (b : Byte) (h : GoodState s) : GoodState (s.writeV x b) :=
  ⟨h.memory, h.stack, h.reach⟩

/-- A pop zeroes the slot it frees, and PC takes a slot's value (R121). -/
theorem goodState_popInto {s : State} {k : Fin Config.stackDepth} (h : GoodState s) (hsp : s.sp = (k.val : Int)) :
    GoodState (s.popInto k) := by
  refine ⟨h.memory, fun j hj => ?_, h.reach.2 k, fun j => ?_⟩ <;> rw [State.slot_popInto]
  · rw [State.sp_popInto] at hj
    by_cases hjk : j = k
    · rw [if_pos hjk]
    · have hne : j.val ≠ k.val := fun e => hjk (Fin.ext e)
      rw [if_neg hjk, h.stack j (by omega)]
  · by_cases hjk : j = k
    · rw [if_pos hjk]
      exact Nat.zero_le _
    · rw [if_neg hjk]
      exact h.reach.2 j

/-- A push fills the one slot it takes with PC, and PC takes a 12-bit address (R123). -/
theorem goodState_pushAndJump {s : State} {k : Fin Config.stackDepth} {target : Word} (h : GoodState s)
    (hsp : s.sp + 1 = (k.val : Int)) (htarget : target.toNat ≤ Config.memSize) :
    GoodState (s.pushAndJump k target) := by
  refine ⟨h.memory, fun j hj => ?_, htarget, fun j => ?_⟩ <;> rw [State.slot_pushAndJump]
  · rw [State.sp_pushAndJump] at hj
    have hjk : j ≠ k := by
      rintro rfl
      omega
    rw [if_neg hjk, h.stack j (by omega)]
  · by_cases hjk : j = k
    · rw [if_pos hjk]
      exact h.reach.1
    · rw [if_neg hjk]
      exact h.reach.2 j

/-- An address operand is below 0x1000 (R122). -/
theorem toNat_addressValue (a : Address) : (addressValue a).toNat = a.toNat := by
  have := a.isLt
  rw [addressValue, BitVec.toNat_setWidth]
  omega

/-- Every instruction keeps the invariants, whether it completes or errs. -/
theorem goodState_exec_after {i : Instr} {s t : State} (h : GoodState s) (ht : stateAfter (exec i s) = some t) :
    GoodState t := by
  obtain rfl | ⟨p, rfl, hp⟩ | rfl | ⟨x, kk, rfl⟩ | ⟨k, hsp, rfl⟩ | ⟨k, a, hsp, rfl⟩ := exec_after_cases ht
  · exact h
  · exact goodState_setPc h (Nat.le_succ_of_le hp)
  · exact goodState_emit _ h
  · exact goodState_writeV x kk h
  · exact goodState_popInto h hsp
  · exact goodState_pushAndJump h hsp (toNat_addressValue a ▸ Nat.le_of_lt a.isLt)

/-- Settles O43: the fetch keeps the invariants, its PC being at most 0x1000, and so does the instruction. -/
theorem stepKeepsInvariants : Obligations.StepKeepsInvariants := by
  intro s t h ht
  have hfetch (hle : s.pc.toNat ≤ 0xFFE) : GoodState (s.setPc (s.pc + 2)) :=
    goodState_setPc h (toNat_pc_add_two hle ▸ Nat.add_le_add_right hle 2)
  obtain rfl | ⟨hle, rfl | ⟨i, hi⟩⟩ := step_after_cases ht
  · exact h
  · exact hfetch hle
  · exact goodState_exec_after (hfetch hle) hi

/-! ### No operation of the core writes memory or the parameters -/

/-- R46, R240: no instruction writes memory or the parameters. -/
theorem exec_after_mem_params {i : Instr} {s t : State} (ht : stateAfter (exec i s) = some t) :
    t.mem = s.mem ∧ t.params = s.params := by
  obtain rfl | ⟨p, rfl, -⟩ | rfl | ⟨x, kk, rfl⟩ | ⟨k, -, rfl⟩ | ⟨k, a, -, rfl⟩ := exec_after_cases ht <;> simp

theorem step_after_mem_params {s t : State} (ht : stateAfter (step s) = some t) :
    t.mem = s.mem ∧ t.params = s.params := by
  obtain rfl | ⟨-, rfl | ⟨i, hi⟩⟩ := step_after_cases ht
  · exact ⟨rfl, rfl⟩
  · exact ⟨rfl, rfl⟩
  · exact (exec_after_mem_params hi :)

/-- Everything a direct `execute` can answer (R100 to R103). -/
theorem execute_cases (c : Call) (s : State) :
    execute c s = .fault (.arity c.identity c.identity.arity c.operands.length s) ∨
      execute c s = .refused (.operandOutOfRange c) ∨
      ∃ i, Instr.ofCall c = some i ∧ execute c s = exec i s := by
  cases hc : Instr.ofCall c with
  | some i => exact .inr (.inr ⟨i, rfl, execute_ofCall hc s⟩)
  | none =>
    simp only [execute, hc]
    split
    · exact .inr (.inl rfl)
    · exact .inl rfl

theorem execute_after_mem_params {c : Call} {s t : State} (ht : stateAfter (execute c s) = some t) :
    t.mem = s.mem ∧ t.params = s.params := by
  rcases execute_cases c s with e | e | ⟨i, -, e⟩ <;> rw [e] at ht
  · cases ht
    exact ⟨rfl, rfl⟩
  · cases ht
  · exact exec_after_mem_params ht

/-- Every host store keeps the canonical memory: an address names a cell (R40). -/
theorem hostStore_mem_wf (e : Element) (value : Int) {s : State} (h : MemoryCanonical s) :
    MemoryCanonical (hostStore e value s) := by
  cases e with
  | mem a => exact State.putByte_wf h a.isLt _
  | _ => exact h

theorem hostStore_outputs (e : Element) (value : Int) (s : State) : (hostStore e value s).outputs = s.outputs := by
  cases e <;> rfl

theorem hostStore_params (e : Element) (value : Int) (s : State) : (hostStore e value s).params = s.params := by
  cases e <;> rfl

/-- The only state a host write can leave is the one its store makes. -/
theorem eq_hostStore_of_hostWrite {e : Element} {value : Int} {s t : State}
    (ht : stateAfter (hostWrite e value s) = some t) : t = hostStore e value s := by
  unfold hostWrite at ht
  split at ht
  · exact (Option.some.inj ht).symm
  · cases ht

/-- Every action of the host keeps the canonical memory and the parameters. -/
theorem hostAct_keeps_memory_params (a : HostAction) {s : State} (h : MemoryCanonical s) :
    MemoryCanonical (hostAct a s) ∧ (hostAct a s).params = s.params := by
  have of_result {r : Result} (hr : ∀ t, stateAfter r = some t → MemoryCanonical t ∧ t.params = s.params) :
      MemoryCanonical ((stateAfter r).getD s) ∧ ((stateAfter r).getD s).params = s.params := by
    cases ht : stateAfter r with
    | none => exact ⟨h, rfl⟩
    | some t => exact hr t ht
  have of_unchanged {t : State} (ht : t.mem = s.mem ∧ t.params = s.params) :
      MemoryCanonical t ∧ t.params = s.params := ⟨(congrArg Memory.wf ht.1).trans h, ht.2⟩
  cases a with
  | next => exact of_result fun t ht => of_unchanged (step_after_mem_params ht)
  | execute c => exact of_result fun t ht => of_unchanged (execute_after_mem_params ht)
  | readOpcode =>
    rcases readOpcode_cases s with ⟨-, e⟩ | ⟨-, e⟩ <;> simp only [hostAct, e]
    · exact ⟨h, rfl⟩
    · exact ⟨h, rfl⟩
  | write e value =>
    refine of_result fun t ht => ?_
    obtain rfl := eq_hostStore_of_hostWrite ht
    exact ⟨hostStore_mem_wf e value h, hostStore_params e value s⟩
  | reset => exact ⟨reset_wf, rfl⟩

/-- Settles O45, by induction on the host's actions. -/
theorem sessionKeepsMemoryAndParams : Obligations.SessionKeepsMemoryAndParams := by
  intro actions
  induction actions with
  | nil => exact fun s h => ⟨h, rfl⟩
  | cons a actions ih =>
    intro s h
    obtain ⟨hmem, hparams⟩ := hostAct_keeps_memory_params a h
    obtain ⟨hmem', hparams'⟩ := ih (hostAct a s) hmem
    exact ⟨hmem', hparams'.trans hparams⟩

end Sys2Proof.Machine
end

section
/-! ## What a completed step can do to the registers and to PC (spec/10_state.md R22, R23) -/

namespace Sys2Proof.Machine

open Sys2Proof.Safety

/-- A skip that completes: with its condition true PC takes PC + 2, at most the ceiling; with it false nothing changes
(R105). -/
theorem skipIf_eq_next {cond : Bool} {s t : State} (h : skipIf cond s = .next t) :
    (cond = true ∧ t = s.setPc (s.pc + 2) ∧ t.pc.toNat ≤ 0xFFF) ∨ (cond = false ∧ t = s) := by
  rcases skipIf_cases cond s with ⟨hc, hle, e⟩ | ⟨hc, -, e⟩ | ⟨_, -, -, e⟩ <;> rw [e] at h <;> cases h
  · refine .inl ⟨hc, congrArg s.setPc (advanced_eq_add s), ?_⟩
    rw [State.setPc_pc, BitVec.toNat_ofNat]
    exact le_trans (Nat.mod_le _ _) hle
  · exact .inr ⟨hc, rfl⟩

/-- Only LD_VX_BYTE writes a general register, the one it names (R23, R160). -/
theorem eq_ldVxByte_of_readV_ne {i : Instr} {s t : State} {y : RegNum} (h : exec i s = .next t)
    (hy : t.readV y ≠ s.readV y) : ∃ kk, i = .ldVxByte y kk ∧ t.readV y = kk := by
  have skip_keeps {cond : Bool} (hs : skipIf cond s = .next t) : t.readV y = s.readV y := by
    obtain ⟨-, rfl, -⟩ | ⟨-, rfl⟩ := skipIf_eq_next hs <;> rfl
  cases i with
  | cls => cases h; exact absurd rfl hy
  | ret =>
    rcases execRet_cases s with ⟨-, e⟩ | ⟨k, -, e⟩ <;> simp only [exec, e] at h <;> cases h
    exact absurd rfl hy
  | jmpAddr a => cases h; exact absurd rfl hy
  | callAddr a =>
    rcases execCallAddr_cases a s with ⟨-, e⟩ | ⟨k, -, e⟩ <;> simp only [exec, e] at h <;> cases h
    exact absurd rfl hy
  | seVxByte x kk => exact absurd (skip_keeps h) hy
  | sneVxByte x kk => exact absurd (skip_keeps h) hy
  | seVxVy x y' => exact absurd (skip_keeps h) hy
  | ldVxByte x kk =>
    cases h
    simp only [State.readV_writeV, byteValue] at hy ⊢
    by_cases hyx : y = x
    · subst hyx
      exact ⟨kk, rfl, if_pos rfl⟩
    · rw [if_neg hyx] at hy
      exact absurd rfl hy

/-- Settles O39: the fetch writes no register, so the instruction did. -/
theorem onlyLoadWritesARegister : Obligations.OnlyLoadWritesARegister := by
  intro s t y h hy
  obtain ⟨i, hd, hi⟩ := exec_of_step_eq_next h
  obtain ⟨kk, rfl, hkk⟩ := eq_ldVxByte_of_readV_ne hi hy
  exact ⟨kk, hd, hkk⟩

/-- A skip whose condition holds (R140 to R142). -/
theorem isSkip_true_iff {i : Instr} {s : State} :
    IsSkip true i s ↔ (∃ x kk, i = .seVxByte x kk ∧ s.readV x = kk) ∨
      (∃ x kk, i = .sneVxByte x kk ∧ s.readV x ≠ kk) ∨ (∃ x y, i = .seVxVy x y ∧ s.readV x = s.readV y) := by
  simp only [IsSkip, eq_comm (a := true), decide_eq_true_eq]

/-- The ways an instruction changes PC: not at all, by a satisfied skip's 2, to its address, or to the slot it pops. -/
theorem exec_pc_cases {i : Instr} {s t : State} (h : exec i s = .next t) :
    (t.pc = s.pc ∧ i ≠ .ret ∧ (∀ a, i ≠ .jmpAddr a) ∧ (∀ a, i ≠ .callAddr a)) ∨
      (t.pc = s.pc + 2 ∧ t.pc.toNat ≤ 0xFFF ∧ IsSkip true i s) ∨
      (∃ a, (i = .jmpAddr a ∨ i = .callAddr a) ∧ t.pc = addressValue a) ∨
      (i = .ret ∧ ∃ k : Fin Config.stackDepth, s.sp = (k.val : Int) ∧ t.pc = s.slot k) := by
  have of_skip {cond : Bool} (hs : IsSkip cond i s) :
      (t.pc = s.pc ∧ i ≠ .ret ∧ (∀ a, i ≠ .jmpAddr a) ∧ (∀ a, i ≠ .callAddr a)) ∨
        (t.pc = s.pc + 2 ∧ t.pc.toNat ≤ 0xFFF ∧ IsSkip true i s) := by
    rw [exec_of_isSkip hs] at h
    obtain ⟨rfl, rfl, hle⟩ | ⟨-, rfl⟩ := skipIf_eq_next h
    · exact .inr ⟨rfl, hle, hs⟩
    · refine .inl ⟨rfl, ?_⟩
      obtain ⟨x, kk, rfl, -⟩ | ⟨x, kk, rfl, -⟩ | ⟨x, y, rfl, -⟩ := hs <;> exact ⟨nofun, nofun, nofun⟩
  cases i with
  | cls => cases h; exact .inl ⟨rfl, nofun, nofun, nofun⟩
  | ret =>
    rcases execRet_cases s with ⟨-, e⟩ | ⟨k, hk, e⟩ <;> simp only [exec, e] at h <;> cases h
    exact .inr (.inr (.inr ⟨rfl, k, hk, rfl⟩))
  | jmpAddr a => cases h; exact .inr (.inr (.inl ⟨a, .inl rfl, rfl⟩))
  | callAddr a =>
    rcases execCallAddr_cases a s with ⟨-, e⟩ | ⟨k, -, e⟩ <;> simp only [exec, e] at h <;> cases h
    exact .inr (.inr (.inl ⟨a, .inr rfl, rfl⟩))
  | seVxByte x kk => exact (of_skip (.inl ⟨x, kk, rfl, rfl⟩)).imp_right .inl
  | sneVxByte x kk => exact (of_skip (.inr (.inl ⟨x, kk, rfl, rfl⟩))).imp_right .inl
  | seVxVy x y => exact (of_skip (.inr (.inr ⟨x, y, rfl, rfl⟩))).imp_right .inl
  | ldVxByte x kk => cases h; exact .inl ⟨rfl, nofun, nofun, nofun⟩

/-- Settles O40: the fetch adds 2 to PC, and the instruction changes it from there. -/
theorem pcChangesOnlyAsListed : Obligations.PcChangesOnlyAsListed := by
  intro s t h
  obtain ⟨i, hd, hi⟩ := exec_of_step_eq_next h
  refine ⟨i, hd, ?_⟩
  obtain ⟨hpc, hi⟩ | ⟨hpc, hle, hskip⟩ | ⟨a, ha, hpc⟩ | ⟨hret, k, hk, hpc⟩ := exec_pc_cases hi
  · exact .inl ⟨hpc, hi⟩
  · have hfour : t.pc = s.pc + 4 := hpc.trans (BitVec.add_assoc s.pc 2 2)
    exact .inr (.inl ⟨hfour, hle, isSkip_true_iff.mp hskip⟩)
  · exact .inr (.inr (.inl ⟨a, ha, hpc ▸ toNat_addressValue a⟩))
  · exact .inr (.inr (.inr ⟨hret, k, hk, hpc⟩))

end Sys2Proof.Machine
end

section
/-! ## Reset and the host's accessors (spec/10_state.md R20 to R31) -/

namespace Sys2Proof.Machine

open Sys2Proof.Safety

/-- Settles O46: the values stand in `State.reset`. -/
theorem resetStateOfTheSource : Obligations.ResetStateOfTheSource := by
  refine ⟨fun a => rfl, rfl, fun x => ?_, rfl⟩
  simp only [State.readV, State.reset, Vector.getElem_replicate]

/-- Every element but SP holds the unsigned values of its width (R31). -/
theorem Element.inDomain_iff_of_ne_sp {e : Element} (he : e ≠ .sp) (value : Int) :
    e.inDomain value = true ↔ 0 ≤ value ∧ value < 2 ^ e.width := by
  have hgreatest : e.least = 0 ∧ e.greatest + 1 = 2 ^ e.width := by
    cases e with
    | sp => exact absurd rfl he
    | _ => exact ⟨rfl, rfl⟩
  rw [Element.inDomain, Bool.and_eq_true, decide_eq_true_eq, decide_eq_true_eq, hgreatest.1, ← hgreatest.2,
    Int.lt_add_one_iff]

/-- SP holds the values -1 to 15 (R26). -/
theorem Element.inDomain_sp_iff (value : Int) : Element.sp.inDomain value = true ↔ -1 ≤ value ∧ value ≤ 15 := by
  rw [Element.inDomain, Bool.and_eq_true, decide_eq_true_eq, decide_eq_true_eq]
  rfl

theorem hostWrite_of_inDomain {e : Element} {value : Int} (h : e.inDomain value = true) (s : State) :
    hostWrite e value s = .next (hostStore e value s) :=
  if_pos h

/-- Settles O52: the value is outside the element's domain. -/
theorem hostWriteOutsideDomainIsRefused : Obligations.HostWriteOutsideDomainIsRefused := by
  rintro e value s hout
  have hnot : ¬ e.inDomain value = true := by
    obtain ⟨rfl, hout⟩ | ⟨he, hout⟩ := hout
    · rw [Element.inDomain_sp_iff]
      omega
    · rw [Element.inDomain_iff_of_ne_sp he]
      omega
  exact if_neg hnot

/-- An unsigned value of a width is read back from a word of that width. -/
theorem toNat_ofInt_of_lt {n : Nat} {value : Int} (h : 0 ≤ value ∧ value < 2 ^ n) :
    ((BitVec.ofInt n value).toNat : Int) = value := by
  rw [BitVec.toNat_ofInt, Int.natCast_pow, Nat.cast_ofNat, Int.emod_eq_of_lt h.1 h.2, Int.toNat_of_nonneg h.1]

/-- A stored value in the element's domain is the value read. -/
theorem hostRead_hostStore {e : Element} {value : Int} {s : State} (hm : MemoryCanonical s)
    (h : e.inDomain value = true) : hostRead e (hostStore e value s) = value := by
  have hword (he : e ≠ .sp) : ((BitVec.ofInt e.width value).toNat : Int) = value :=
    toNat_ofInt_of_lt ((Element.inDomain_iff_of_ne_sp he value).mp h)
  cases e with
  | mem a =>
    simp only [hostRead, hostStore, State.byteAt_putByte hm, if_true]
    exact hword nofun
  | pc => exact hword nofun
  | v x =>
    simp only [hostRead, hostStore, State.readV_writeV, if_true]
    exact hword nofun
  | i => exact hword nofun
  | stack k =>
    simp only [hostRead, hostStore, State.slot_setSlot, if_true]
    exact hword nofun
  | sp =>
    obtain ⟨hlow, hhigh⟩ := (Element.inDomain_sp_iff value).mp h
    have hdepth : (value + 1).toNat < Config.stackDepth + 1 := by
      change (value + 1).toNat < 17
      omega
    simp only [hostRead, hostStore, State.sp, State.setDepth_depth, Fin.ofNat, Nat.mod_eq_of_lt hdepth]
    omega
  | dt => exact hword nofun
  | st => exact hword nofun

/-- Settles O50: the write is accepted, and the stored value is the one read. -/
theorem hostWriteReadsBack : Obligations.HostWriteReadsBack :=
  fun e value s hm h => ⟨hostStore e value s, hostWrite_of_inDomain h s, hostRead_hostStore hm h⟩

/-- A store to one element leaves what every other element reads: only cells, registers and slots share a field of the
state, and there the two differ in their index. -/
theorem hostRead_hostStore_of_ne {e e' : Element} (value : Int) {s : State} (hm : MemoryCanonical s) (h : e' ≠ e) :
    hostRead e' (hostStore e value s) = hostRead e' s := by
  cases e with
  | mem a =>
    cases e' with
    | mem a' =>
      have hne : ¬ a'.toNat = a.toNat := fun e => h (congrArg Element.mem (BitVec.eq_of_toNat_eq e))
      simp only [hostRead, hostStore, State.byteAt_putByte hm, if_neg hne]
    | _ => rfl
  | v x =>
    cases e' with
    | v x' =>
      have hne : ¬ x' = x := fun e => h (congrArg Element.v e)
      simp only [hostRead, hostStore, State.readV_writeV, if_neg hne]
    | _ => rfl
  | stack k =>
    cases e' with
    | stack k' =>
      have hne : ¬ k' = k := fun e => h (congrArg Element.stack e)
      simp only [hostRead, hostStore, State.slot_setSlot, if_neg hne]
    | _ => rfl
  | pc => cases e' with | pc => exact absurd rfl h | _ => rfl
  | i => cases e' with | i => exact absurd rfl h | _ => rfl
  | sp => cases e' with | sp => exact absurd rfl h | _ => rfl
  | dt => cases e' with | dt => exact absurd rfl h | _ => rfl
  | st => cases e' with | st => exact absurd rfl h | _ => rfl

/-- Settles O51: a completed write is a store. -/
theorem hostWriteLeavesOtherElements : Obligations.HostWriteLeavesOtherElements := by
  intro e e' value s t hm hne h
  have ht : t = hostStore e value s := eq_hostStore_of_hostWrite (congrArg stateAfter h)
  subst ht
  exact ⟨hostRead_hostStore_of_ne value hm hne, hostStore_outputs e value s, hostStore_params e value s⟩

end Sys2Proof.Machine
end

section
/-! ## Memory under the fetch, the core's operations and the host's stores (spec/20_memory.md) -/

namespace Sys2Proof.Machine

open Sys2Proof.Safety

/-! ### The fetched opcode as a number -/

/-- R41: the two bytes do not overlap, so composing them adds them. -/
theorem toNat_composeOpcode (hi lo : Byte) : (composeOpcode hi lo).toNat = 256 * hi.toNat + lo.toNat := by
  have hhi := hi.isLt
  have hlo := lo.isLt
  have hshift : hi.toNat <<< 8 < 2 ^ 16 := by
    rw [Nat.shiftLeft_eq]
    omega
  calc (composeOpcode hi lo).toNat
      = hi.toNat <<< 8 ||| lo.toNat := by
        rw [composeOpcode, BitVec.toNat_or, BitVec.toNat_shiftLeft, BitVec.toNat_setWidth_of_le (by decide),
          BitVec.toNat_setWidth_of_le (by decide), Nat.mod_eq_of_lt hshift]
    _ = hi.toNat <<< 8 + lo.toNat := (Nat.shiftLeft_add_eq_or_of_lt hlo _).symm
    _ = 256 * hi.toNat + lo.toNat := by rw [Nat.shiftLeft_eq, Nat.mul_comm]

/-- Settles O9: the opcode at PC is composed of the two bytes. -/
theorem fetchedOpcodeIsBigEndian : Obligations.FetchedOpcodeIsBigEndian :=
  fun _ => toNat_composeOpcode _ _

/-! ### No operation of the core writes memory -/

/-- States with one memory read the same at every address. -/
theorem State.byteAt_eq_of_mem_eq {s t : State} (h : t.mem = s.mem) (a : Nat) : t.byteAt a = s.byteAt a :=
  congrArg (Memory.byteAt · a) h

/-- Settles O38: a step, an `execute` and a fetch leave the memory list itself as it was. -/
theorem coreNeverWritesMemory : Obligations.CoreNeverWritesMemory := by
  refine fun s t => ⟨fun ht => ?step, fun c ht => ?execute, fun w e => ?fetched, fun f e => ?fetchFault⟩
  case step => exact State.byteAt_eq_of_mem_eq (step_after_mem_params ht).1
  case execute => exact State.byteAt_eq_of_mem_eq (execute_after_mem_params ht).1
  case fetched =>
    rcases readOpcode_cases s with ⟨-, e'⟩ | ⟨-, e'⟩ <;> rw [e'] at e <;> cases e
    exact State.setPc_byteAt s _
  case fetchFault =>
    rcases readOpcode_cases s with ⟨-, e'⟩ | ⟨-, e'⟩ <;> rw [e'] at e <;> cases e
    exact fun _ => rfl

/-! ### The host's opcode store -/

@[simp] theorem putOpcode_pc (s : State) (a : Nat) (w : Word) : (putOpcode s a w).pc = s.pc := rfl
@[simp] theorem putOpcode_params (s : State) (a : Nat) (w : Word) : (putOpcode s a w).params = s.params := rfl

/-- A byte read after the host's opcode store, high byte first (R41). -/
theorem byteAt_putOpcode {s : State} {a : Nat} (hm : MemoryCanonical s) (ha : a < Config.memSize) (w : Word) (q : Nat) :
    (putOpcode s a w).byteAt q = if q = a + 1 then lowByte w else if q = a then highByte w else s.byteAt q := by
  rw [putOpcode, State.byteAt_putByte (State.putByte_wf hm ha _), State.byteAt_putByte hm]

/-- The word stored at an address stands there (R41, R49). -/
theorem composeOpcode_putOpcode {s : State} {a : Nat} (hm : MemoryCanonical s) (ha : a < Config.memSize) (w : Word) :
    composeOpcode ((putOpcode s a w).byteAt a) ((putOpcode s a w).byteAt (a + 1)) = w := by
  rw [byteAt_putOpcode hm ha, byteAt_putOpcode hm ha, if_neg (Nat.ne_of_lt (Nat.lt_succ_self a)), if_pos rfl, if_pos rfl,
    composeOpcode_bytes]

/-- Settles O53: the fetch composes the two bytes that the store placed at PC. -/
theorem storedOpcodeIsFetchedNext : Obligations.StoredOpcodeIsFetchedNext :=
  fun _ w hm hpc => composeOpcode_putOpcode hm (Nat.lt_of_le_of_lt hpc (by decide)) w

/-! ### The encoder's word decodes to its instruction (R77) -/

/-- The matcher of an instruction's identity is asserted on its encoding. -/
theorem matcher_encode (m : SeVxVyMask) (i : Instr) : matcher m (encode i) i.identity = true := by
  cases i with
  | cls => rfl
  | ret => rfl
  | jmpAddr a => simp only [matcher, Instr.identity, encode_jmpAddr, fields_of_addr, beq_self_eq_true]
  | callAddr a => simp only [matcher, Instr.identity, encode_callAddr, fields_of_addr, beq_self_eq_true]
  | seVxByte x kk => simp only [matcher, Instr.identity, encode_seVxByte, fields_of_reg_byte, beq_self_eq_true]
  | sneVxByte x kk => simp only [matcher, Instr.identity, encode_sneVxByte, fields_of_reg_byte, beq_self_eq_true]
  | seVxVy x y =>
    simp only [matcher, Instr.identity, encode_seVxVy, fields_of_reg_reg, beq_self_eq_true, Bool.not_false, Bool.or_true,
      Bool.and_self]
  | ldVxByte x kk => simp only [matcher, Instr.identity, encode_ldVxByte, fields_of_reg_byte, beq_self_eq_true]

/-- The operand fields of an encoding are the instruction's operands. -/
theorem operandFields_encode (i : Instr) : operandFields (encode i) i.identity = i.operands := by
  cases i with
  | cls => rfl
  | ret => rfl
  | jmpAddr a => simp only [operandFields, Instr.identity, Instr.operands, encode_jmpAddr, fields_of_addr]
  | callAddr a => simp only [operandFields, Instr.identity, Instr.operands, encode_callAddr, fields_of_addr]
  | seVxByte x kk => simp only [operandFields, Instr.identity, Instr.operands, encode_seVxByte, fields_of_reg_byte]
  | sneVxByte x kk => simp only [operandFields, Instr.identity, Instr.operands, encode_sneVxByte, fields_of_reg_byte]
  | seVxVy x y => simp only [operandFields, Instr.identity, Instr.operands, encode_seVxVy, fields_of_reg_reg]
  | ldVxByte x kk => simp only [operandFields, Instr.identity, Instr.operands, encode_ldVxByte, fields_of_reg_byte]

theorem decodeCall_encode (m : SeVxVyMask) (i : Instr) : decodeCall m (encode i) = some i.call := by
  rw [decodeCall_eq, asserted_of_matcher (matcher_encode m i), Option.map_some, operandFields_encode]
  rfl

theorem decodeWord_encode (m : SeVxVyMask) (i : Instr) : decodeWord m (encode i) = some i := by
  rw [decodeWord, decodeCall_encode, Option.bind_some, Instr.ofCall_call]

/-! ### A stored instruction is the one that runs -/

/-- Where an opcode can be fetched at PC, the host's table word goes to PC and nothing is repositioned (R41). -/
theorem withFetchWord_of_pc_le {s : State} (hpc : s.pc.toNat ≤ 0xFFE) (w : Word) :
    s.withFetchWord 16 w.toNat = putOpcode s s.pc.toNat w := by
  have hfetchable : fetchable s = s := if_neg (Nat.not_lt.mpr hpc)
  rw [State.withFetchWord, tableWord, Nat.mod_eq_of_lt w.isLt, BitVec.ofNat_toNat, BitVec.setWidth_eq, loadAtPc,
    hfetchable]

/-- Settles O54: the step fetches the stored encoding, which decodes to its instruction. -/
theorem storedInstructionRunsNext : Obligations.StoredInstructionRunsNext := by
  intro s i hm hpc
  rw [withFetchWord_of_pc_le hpc, step_of_pc_le (s := putOpcode s s.pc.toNat (encode i)) hpc,
    storedOpcodeIsFetchedNext s (encode i) hm hpc, decodeAndExecute, State.setPc_params, decodeWord_encode]
  rfl

/-! ### The host's program load (R242) -/

/-- Storing an image changes nothing but memory. -/
theorem storeBytes_eq_with_mem (bytes : List Byte) (a : Nat) (s : State) :
    storeBytes a bytes s = { s with mem := (storeBytes a bytes s).mem } := by
  induction bytes generalizing a s with
  | nil => rfl
  | cons b bytes ih => exact ih (a + 1) (s.putByte a b)

/-- A byte outside the image reads as before. -/
theorem byteAt_storeBytes_of_outside {bytes : List Byte} {a q : Nat} {s : State} (hm : MemoryCanonical s)
    (hfit : a + bytes.length ≤ Config.memSize) (hq : q < a ∨ a + bytes.length ≤ q) :
    (storeBytes a bytes s).byteAt q = s.byteAt q := by
  induction bytes generalizing a s with
  | nil => rfl
  | cons b bytes ih =>
    rw [List.length_cons] at hfit hq
    have hne : ¬ q = a := by omega
    calc (storeBytes (a + 1) bytes (s.putByte a b)).byteAt q
        = (s.putByte a b).byteAt q := ih (State.putByte_wf hm (by omega) b) (by omega) (by omega)
      _ = s.byteAt q := by rw [State.byteAt_putByte hm, if_neg hne]

@[simp] theorem length_assemble (lines : List AsmLine) : (assemble lines).length = 2 * lines.length := by
  simp [assemble, Nat.mul_comm]

/-- An assembled program is stored word by word (R80). -/
theorem storeBytes_assemble_cons (line : AsmLine) (lines : List AsmLine) (a : Nat) (s : State) :
    storeBytes a (assemble (line :: lines)) s =
      storeBytes (a + 2) (assemble lines) (putOpcode s a line.encoding) :=
  rfl

/-- The word at offset 2j of a stored program is the encoding of line j: the store of its own word puts it there, and
the words before and after it go elsewhere. -/
theorem composeOpcode_storeBytes_assemble {lines : List AsmLine} {a j : Nat} {s : State} {line : AsmLine}
    (hm : MemoryCanonical s) (hfit : a + 2 * lines.length ≤ Config.memSize) (hj : lines[j]? = some line) :
    composeOpcode ((storeBytes a (assemble lines) s).byteAt (a + 2 * j))
      ((storeBytes a (assemble lines) s).byteAt (a + 2 * j + 1)) = line.encoding := by
  induction lines generalizing a j s with
  | nil => cases hj
  | cons first lines ih =>
    rw [List.length_cons] at hfit
    have hm' : MemoryCanonical (putOpcode s a first.encoding) := putOpcode_wf hm (by omega) _
    have hfit' : a + 2 + 2 * lines.length ≤ Config.memSize := by omega
    rw [storeBytes_assemble_cons]
    cases j with
    | zero =>
      obtain rfl : first = line := Option.some.inj hj
      have hfitBytes : a + 2 + (assemble lines).length ≤ Config.memSize := by rwa [length_assemble]
      rw [Nat.mul_zero, Nat.add_zero a, byteAt_storeBytes_of_outside hm' hfitBytes (.inl (by omega)),
        byteAt_storeBytes_of_outside hm' hfitBytes (.inl (by omega)), composeOpcode_putOpcode hm (by omega)]
    | succ j =>
      have hoffset : a + 2 * (j + 1) = a + 2 + 2 * j := by omega
      rw [hoffset]
      exact ih hm' hfit' hj

/-- Settles O59: a program that fits is loaded, and the load is the store of its words. -/
theorem loadedProgramReadsBack : Obligations.LoadedProgramReadsBack := by
  intro lines a s hm hfit
  have hfitBytes : a + (assemble lines).length ≤ Config.memSize := by rwa [length_assemble]
  refine ⟨storeBytes a (assemble lines) s, if_pos hfitBytes, fun j line hj => ?words, fun q hq => ?outside,
    storeBytes_eq_with_mem _ a s⟩
  case words => exact composeOpcode_storeBytes_assemble hm hfit hj
  case outside =>
    rw [← length_assemble] at hq
    exact byteAt_storeBytes_of_outside hm hfitBytes hq

end Sys2Proof.Machine
end

section
/-! ## The decoder and the encoder in equations (spec/30_encoding.md R64 to R79) -/

namespace Sys2Proof.Machine

/-! ### The decoded instruction as the fields of the word -/

/-- The instruction of an identity whose operands are the word's fields (the table after R68). -/
def instrOfFields (w : Word) : Identity → Instr
  | .cls => .cls
  | .ret => .ret
  | .jmpAddr => .jmpAddr (fieldAddr w)
  | .callAddr => .callAddr (fieldAddr w)
  | .seVxByte => .seVxByte (fieldX w) (fieldByte w)
  | .sneVxByte => .sneVxByte (fieldX w) (fieldByte w)
  | .seVxVy => .seVxVy (fieldX w) (fieldY w)
  | .ldVxByte => .ldVxByte (fieldX w) (fieldByte w)

@[simp] theorem call_instrOfFields (w : Word) (id : Identity) :
    (instrOfFields w id).call = ⟨id, operandFields w id⟩ := by
  cases id <;> rfl

theorem decodeCall_eq_some_iff {m : SeVxVyMask} {w : Word} {c : Call} :
    decodeCall m w = some c ↔ ∃ id, matcher m w id = true ∧ (instrOfFields w id).call = c := by
  simp only [decodeCall_eq, Option.map_eq_some_iff, call_instrOfFields]
  exact exists_congr fun id => and_congr_left fun _ => ⟨matcher_of_asserted, asserted_of_matcher⟩

/-- A word decodes to the instruction of its fields, of the identity whose matcher is asserted. -/
theorem decodeWord_eq_some_iff {m : SeVxVyMask} {w : Word} {i : Instr} :
    decodeWord m w = some i ↔ ∃ id, matcher m w id = true ∧ instrOfFields w id = i := by
  simp only [decodeWord, Option.bind_eq_some_iff, decodeCall_eq_some_iff]
  constructor
  · rintro ⟨_, ⟨id, hmatch, rfl⟩, hi⟩
    rw [Instr.ofCall_call] at hi
    exact ⟨id, hmatch, Option.some.inj hi⟩
  · rintro ⟨id, hmatch, rfl⟩
    exact ⟨_, ⟨id, hmatch, rfl⟩, Instr.ofCall_call _⟩

/-- Settles O7: the decoded call is an instruction's, whose operands have their kinds' widths. -/
theorem decodedOperandsFitTheirKinds : Obligations.DecodedOperandsFitTheirKinds := by
  intro m w c h
  obtain ⟨id, -, rfl⟩ := decodeCall_eq_some_iff.mp h
  exact Laws.OperandsFit.ofWellFormed (Instr.wellFormed_eq_true (instrOfFields w id))

/-! ### Encoding (R77) -/

/-- Placing the operands is a fold over the descriptors and their operands. -/
theorem placeOperands_eq_foldl (ds : List Descriptor) (vs : List Nat) (w : Word) :
    placeOperands ds vs w = (ds.zip vs).foldl (fun w p => w ||| BitVec.ofNat 16 p.2 <<< p.1.shift) w := by
  induction ds generalizing vs w with
  | nil => rfl
  | cons d ds ih =>
    cases vs with
    | nil => rfl
    | cons v vs => exact ih vs _

/-- The mask parameter changes only a mask: no entry's pattern or descriptors (R65). -/
theorem catalogEntry_pattern_descriptors (m m' : SeVxVyMask) (id : Identity) :
    (catalogEntry m id).pattern = (catalogEntry m' id).pattern ∧
      (catalogEntry m id).descriptors = (catalogEntry m' id).descriptors := by
  cases id <;> exact ⟨rfl, rfl⟩

/-- Settles O1: the decoder finds the encoding's identity and fields. -/
theorem decodeOfEncodeIsIdentity : Obligations.DecodeOfEncodeIsIdentity := by
  intro m i
  obtain ⟨hpattern, hdescriptors⟩ := catalogEntry_pattern_descriptors m Params.default.seVxVyMask i.identity
  rw [hpattern, hdescriptors]
  exact ⟨placeOperands_eq_foldl _ _ _, decodeCall_encode m i, decodeWord_encode m i⟩

/-! ### The words that decode (R76) -/

/-- Clearing the low nibble of a word leaves its leading digit and its two register fields. -/
theorem and_clearLowMask (w : Word) :
    w &&& (0xFFF0 : Word) =
      (leadingDigit w).setWidth 16 <<< 12 ||| (fieldX w).setWidth 16 <<< 8 ||| (fieldY w).setWidth 16 <<< 4 := by
  apply BitVec.eq_of_getLsbD_eq
  intro i hi
  interval_cases i <;> simp [leadingDigit, fieldX, fieldY]

/-- A word with a zero low nibble has nothing to clear. -/
theorem and_clearLowMask_of_lowNibble {w : Word} (h : lowNibbleNonzero w = false) : w &&& (0xFFF0 : Word) = w := by
  have hlow : w.extractLsb' 0 4 = 0 := bne_eq_false_iff_eq.mp h
  calc w &&& (0xFFF0 : Word)
      = w &&& (0xFFF0 : Word) ||| (w.extractLsb' 0 4).setWidth 16 := by
        rw [hlow]
        exact BitVec.or_zero.symm
    _ = w := by
        apply BitVec.eq_of_getLsbD_eq
        intro i hi
        interval_cases i <;> simp

theorem matcher_seVxVy_iff {m : SeVxVyMask} {w : Word} :
    matcher m w .seVxVy = true ↔ leadingDigit w = 5 ∧ (m = .leadingDigit ∨ lowNibbleNonzero w = false) := by
  simp [matcher]

/-- Outside SE_VX_VY the matched digits and the operand fields are the whole word. -/
theorem encode_instrOfFields {m : SeVxVyMask} {w : Word} {id : Identity} (h : matcher m w id = true)
    (hid : id ≠ .seVxVy) : encode (instrOfFields w id) = w := by
  cases id with
  | cls => exact (beq_iff_eq.mp h).symm
  | ret => exact (beq_iff_eq.mp h).symm
  | jmpAddr => rw [instrOfFields, encode_jmpAddr, ← beq_iff_eq.mp h, ← word_of_addr]
  | callAddr => rw [instrOfFields, encode_callAddr, ← beq_iff_eq.mp h, ← word_of_addr]
  | seVxByte => rw [instrOfFields, encode_seVxByte, ← beq_iff_eq.mp h, ← word_of_reg_byte]
  | sneVxByte => rw [instrOfFields, encode_sneVxByte, ← beq_iff_eq.mp h, ← word_of_reg_byte]
  | seVxVy => exact absurd rfl hid
  | ldVxByte => rw [instrOfFields, encode_ldVxByte, ← beq_iff_eq.mp h, ← word_of_reg_byte]

/-- For SE_VX_VY they are the word up to its low nibble. -/
theorem encode_instrOfFields_seVxVy {w : Word} (h : leadingDigit w = 5) :
    encode (instrOfFields w .seVxVy) = w &&& (0xFFF0 : Word) := by
  rw [instrOfFields, encode_seVxVy, ← h, ← and_clearLowMask]

/-- Under the mask 0xF000 the decoder does not see the low nibble of a `5xyn` word (R65, D4). -/
theorem decodeWord_seVxVy_of_clearLow {w : Word} {x y : RegNum}
    (h : w &&& (0xFFF0 : Word) = encode (.seVxVy x y)) : decodeWord .leadingDigit w = some (.seVxVy x y) := by
  have hword := fields_of_reg_reg (leadingDigit w) (fieldX w) (fieldY w)
  rw [← and_clearLowMask, h, encode_seVxVy] at hword
  obtain ⟨hdigit, hx, hy, -⟩ := hword
  obtain ⟨hdigit', hx', hy', -⟩ := fields_of_reg_reg 5 x y
  refine decodeWord_eq_some_iff.mpr ⟨.seVxVy, matcher_seVxVy_iff.mpr ⟨hdigit.symm.trans hdigit', .inl rfl⟩, ?_⟩
  rw [instrOfFields, ← hx, ← hy, hx', hy']

/-- Settles O2: the matched digits and the operand fields make up the word, but for the low nibble of `5xyn`. -/
theorem decodedWordsAreExactlyEncodings : Obligations.DecodedWordsAreExactlyEncodings := by
  intro m w i
  constructor
  · intro h
    obtain ⟨id, hmatch, rfl⟩ := decodeWord_eq_some_iff.mp h
    by_cases hid : id = .seVxVy
    · subst hid
      obtain ⟨hdigit, hmask | hlow⟩ := matcher_seVxVy_iff.mp hmatch
      · exact .inr ⟨hmask, ⟨_, _, rfl⟩, (encode_instrOfFields_seVxVy hdigit).symm⟩
      · exact .inl ((and_clearLowMask_of_lowNibble hlow).symm.trans (encode_instrOfFields_seVxVy hdigit).symm)
    · exact .inl (encode_instrOfFields hmatch hid).symm
  · rintro (rfl | ⟨rfl, ⟨x, y, rfl⟩, h⟩)
    · exact decodeWord_encode m i
    · exact decodeWord_seVxVy_of_clearLow h

/-! ### The table's entries (R65 to R67, R70, R74) -/

theorem Identity.mem_all (id : Identity) : id ∈ Identity.all := by
  cases id <;> decide

theorem mem_instructionTable_iff {m : SeVxVyMask} {e : CatalogEntry} :
    e ∈ instructionTable m ↔ ∃ id, catalogEntry m id = e := by
  simp only [instructionTable, List.mem_map, Identity.mem_all, true_and]

/-- Every entry looks at all four bits of the leading digit, so a word that it matches has its pattern's. -/
theorem leadingDigit_of_hits {m : SeVxVyMask} {w : Word} {id : Identity} (h : (catalogEntry m id).hits w = true) :
    w >>> 12 = (catalogEntry m id).pattern >>> 12 := by
  have hmask : (catalogEntry m id).mask >>> 12 = 0xF := by cases m <;> cases id <;> rfl
  have hdigit : w >>> 12 &&& (0xF : Word) = w >>> 12 := by
    apply BitVec.eq_of_getLsbD_eq
    intro i hi
    interval_cases i <;> simp
  rw [← beq_iff_eq.mp h, BitVec.ushiftRight_and_distrib, hmask, hdigit]

@[simp] theorem catalogEntry_identity (m : SeVxVyMask) (id : Identity) : (catalogEntry m id).identity = id := by
  cases id <;> rfl

/-- A matching entry is the one decoded, with its fields as operands (R68, R74). -/
theorem decodeCall_of_hits {m : SeVxVyMask} {w : Word} {id : Identity} (h : (catalogEntry m id).hits w = true) :
    decodeCall m w = some ⟨id, (catalogEntry m id).descriptors.map (·.extract w)⟩ := by
  rw [hits_eq_matcher] at h
  rw [decodeCall_eq, asserted_of_matcher h, descriptors_extract]
  rfl

/-- Settles O3: two matching entries are both the one decoded. -/
theorem atMostOneEntryMatches : Obligations.AtMostOneEntryMatches := by
  refine fun m w => ⟨?unique, ?cls, ?ret, fun id _ _ => leadingDigit_of_hits, ?decoded⟩
  case unique =>
    simp only [mem_instructionTable_iff]
    rintro _ ⟨id, rfl⟩ _ ⟨id', rfl⟩ h h'
    have hcall := (decodeCall_of_hits h).symm.trans (decodeCall_of_hits h')
    have hid : id = id' := congrArg Call.identity (Option.some.inj hcall)
    rw [hid]
  case cls => rw [hits_eq_matcher, matcher, beq_iff_eq]
  case ret => rw [hits_eq_matcher, matcher, beq_iff_eq]
  case decoded =>
    simp only [mem_instructionTable_iff]
    rintro _ ⟨id, rfl⟩ h
    rw [decodeCall_of_hits h, catalogEntry_identity]

/-- Settles O5, by evaluating the two tables. -/
theorem tableEntriesAreWellFormed : Obligations.TableEntriesAreWellFormed := by
  intro m
  cases m with
  | leadingDigit => decide
  | leadingDigitAndLowNibble => decide

/-- A word that no entry matches does not decode (R70). -/
theorem decodeWord_eq_none_of_unmatched {m : SeVxVyMask} {w : Word}
    (h : ∀ e ∈ instructionTable m, w &&& e.mask ≠ e.pattern) : decodeWord m w = none := by
  have hfind : (instructionTable m).find? (·.hits w) = none :=
    List.find?_eq_none.mpr fun e he hhits => h e he (beq_iff_eq.mp hhits)
  rw [decodeWord, decodeCall, hfind]
  rfl

/-- Settles O13: the step fetches the word, which does not decode. -/
theorem unmatchedWordRaisesDecode : Obligations.UnmatchedWordRaisesDecode := by
  intro s hpc h
  refine ⟨s.setPc (s.pc + 2), ?_⟩
  rw [step_of_pc_le hpc, decodeAndExecute, State.setPc_params, decodeWord_eq_none_of_unmatched h]
  rfl

theorem decoderInputOk_iff {n : Nat} : decoderInputOk n = true ↔ n ≤ 0xFFFF := decide_eq_true_iff

/-- Settles O8: the three answers of the decoder on a number. -/
theorem wideDecoderInputIsRefused : Obligations.WideDecoderInputIsRefused := by
  refine fun m n => ⟨fun hwide => ?wide, fun hfits i h => ?decoded, fun hfits h => ?unrecognized⟩
  case wide => exact if_neg (mt decoderInputOk_iff.mp (Nat.not_le.mpr hwide))
  case decoded => rw [decodeNat, if_pos (decoderInputOk_iff.mpr hfits), h]
  case unrecognized => rw [decodeNat, if_pos (decoderInputOk_iff.mpr hfits), h]

/-! ### The decoder's ports (R78, R79) -/

@[simp] theorem Identity.ofCode_code (id : Identity) : Identity.ofCode id.code = id := by
  cases id <;> rfl

/-- The code of an identity is its entry's place in the table (R78). -/
theorem instructionTable_getElem?_code (m : SeVxVyMask) (id : Identity) :
    ((instructionTable m)[id.code.toNat]?).map (·.identity) = some id := by
  cases id <;> rfl

theorem toNat_portArgc (w : Word) (id : Identity) : (portArgc id).toNat = (operandFields w id).length := by
  cases id <;> rfl

/-- The first operand is zero-extended to the 12 bits of its port. -/
theorem toNat_portArg0 (w : Word) (id : Identity) : (portArg0 w id).toNat = (operandFields w id).getD 0 0 := by
  have hx : ((fieldX w).setWidth 12).toNat = (fieldX w).toNat := BitVec.toNat_setWidth_of_le (by decide)
  cases id with
  | seVxByte => exact hx
  | sneVxByte => exact hx
  | seVxVy => exact hx
  | ldVxByte => exact hx
  | _ => rfl

/-- The second operand is zero-extended to the 8 bits of its port. -/
theorem toNat_portArg1 (w : Word) (id : Identity) : (portArg1 w id).toNat = (operandFields w id).getD 1 0 := by
  cases id with
  | seVxVy => exact BitVec.toNat_setWidth_of_le (by decide)
  | _ => rfl

theorem decoderPorts_of_asserted {m : SeVxVyMask} {w : Word} {id : Identity} (h : assertedIdentity m w = some id) :
    decoderPorts m w = ⟨true, id.code, portArgc id, portArg0 w id, portArg1 w id, w⟩ := by
  rw [decoderPorts, h]

theorem decoderPorts_of_miss {m : SeVxVyMask} {w : Word} (h : assertedIdentity m w = none) :
    decoderPorts m w = ⟨false, Config.missId w, 2, Config.missArg0 w, 0, w⟩ := by
  rw [decoderPorts, h]

/-- Settles O4: the asserted identity is the decoded one, and each port carries its part of the call. -/
theorem decoderPortsCarryDecodedCall : Obligations.DecoderPortsCarryDecodedCall := by
  intro m w
  rw [decodeCall_eq]
  cases h : assertedIdentity m w with
  | none =>
    rw [decoderPorts_of_miss h]
    exact ⟨rfl, iff_of_true rfl rfl, nofun⟩
  | some id =>
    rw [decoderPorts_of_asserted h]
    refine ⟨rfl, iff_of_false nofun nofun, fun c hc => ?_⟩
    obtain rfl := Option.some.inj hc
    exact ⟨rfl, Identity.ofCode_code id, instructionTable_getElem?_code m id, toNat_portArgc w id, toNat_portArg0 w id,
      toNat_portArg1 w id⟩

end Sys2Proof.Machine
end

section
/-! ## The error payload word (spec/60_exceptions.md R200) -/

namespace Sys2Proof.Machine

/-- A value packed into a payload word is read back from its field's bits. -/
theorem extractLsb'_field {n k : Nat} (x : BitVec n) (h : k + n ≤ 32) :
    (x.setWidth 32 <<< k).extractLsb' k n = x := by
  apply BitVec.eq_of_getLsbD_eq
  intro i hi
  have hin : k + i < 32 := by omega
  simp [hi, hin]

/-- It leaves the bits of every other field zero. -/
theorem extractLsb'_field_of_disjoint {n k j m : Nat} (x : BitVec n) (h : k + n ≤ j ∨ j + m ≤ k) :
    (x.setWidth 32 <<< k).extractLsb' j m = 0#m := by
  apply BitVec.eq_of_getLsbD_eq
  intro i hi
  simp only [BitVec.getLsbD_extractLsb', BitVec.getLsbD_shiftLeft, BitVec.getLsbD_setWidth]
  rcases h with h | h
  · simp [BitVec.getLsbD_of_ge x (j + i - k) (by omega)]
  · have hbelow : j + i < k := by omega
    simp [hbelow]

/-- A word alone in the payload stands in its low half. -/
theorem extractLsb'_word (w : Word) : (w.setWidth 32).extractLsb' 0 16 = w := by
  have hfield := extractLsb'_field (k := 0) w (by decide)
  rwa [BitVec.shiftLeft_zero] at hfield

theorem pcOverflow_info_fields (pc : Word) (delta : Nat) (s : State) :
    (Fault.pcOverflow pc delta s).info.extractLsb' 0 16 = pc ∧
      (Fault.pcOverflow pc delta s).info.extractLsb' 16 4 = BitVec.ofNat 4 delta := by
  have hinfo : (Fault.pcOverflow pc delta s).info =
      pc.setWidth 32 <<< 0 ||| (BitVec.ofNat 4 delta).setWidth 32 <<< 16 := by
    rw [BitVec.shiftLeft_zero]
    rfl
  rw [hinfo]
  simp (disch := omega) only [BitVec.extractLsb'_or, extractLsb'_field, extractLsb'_field_of_disjoint, BitVec.or_zero,
    BitVec.zero_or, and_self]

theorem arity_info_fields (id : Identity) (expected actual : Nat) (s : State) :
    (Fault.arity id expected actual s).info.extractLsb' 0 3 = id.code ∧
      (Fault.arity id expected actual s).info.extractLsb' 4 2 = BitVec.ofNat 2 expected ∧
      (Fault.arity id expected actual s).info.extractLsb' 8 8 = BitVec.ofNat 8 actual := by
  have hinfo : (Fault.arity id expected actual s).info =
      id.code.setWidth 32 <<< 0 ||| (BitVec.ofNat 2 expected).setWidth 32 <<< 4
        ||| (BitVec.ofNat 8 actual).setWidth 32 <<< 8 := by
    rw [BitVec.shiftLeft_zero]
    rfl
  rw [hinfo]
  simp (disch := omega) only [BitVec.extractLsb'_or, extractLsb'_field, extractLsb'_field_of_disjoint, BitVec.or_zero,
    BitVec.zero_or, and_self]

/-- Settles O57: each field is read back from the bits it was packed into. -/
theorem errorPayloadFields : Obligations.ErrorPayloadFields := by
  intro w id expected actual delta s
  obtain ⟨hpc, hdelta⟩ := pcOverflow_info_fields w delta s
  obtain ⟨hid, hexpected, hactual⟩ := arity_info_fields id expected actual s
  exact ⟨rfl, rfl, rfl, rfl, rfl, rfl, rfl, extractLsb'_word w, extractLsb'_word w, hpc, hdelta, hid,
    Identity.ofCode_code id, hexpected, hactual, rfl, rfl⟩

end Sys2Proof.Machine
end

section
/-! ## The assembler's text (spec/30_encoding.md R80) -/

namespace Sys2Proof.Machine

/-! ### Digits and fixed text -/

/-- A digit's value is the nibble it is written for. -/
theorem hexValue_hexChar (n : BitVec 4) : hexValue (hexChar n) = some n.toNat := by
  revert n
  decide

/-- Reading the digits of a number appends its low digits to the value so far and goes on behind them. -/
theorem readHex_hexDigits (digits more n soFar : Nat) (rest : List Char) :
    readHex (digits + more) soFar (hexDigits digits n ++ rest) =
      readHex more (16 ^ digits * soFar + n % 16 ^ digits) rest := by
  induction digits generalizing n more rest with
  | zero => simp [hexDigits, Nat.mod_one]
  | succ digits ih =>
    have hvalue : 16 * (16 ^ digits * soFar + n / 16 % 16 ^ digits) + n % 16 =
        16 ^ (digits + 1) * soFar + n % 16 ^ (digits + 1) := by
      rw [Nat.pow_succ', Nat.mod_mul]
      ring
    rw [hexDigits, List.append_assoc, Nat.add_assoc, ih, Nat.add_comm 1 more, List.singleton_append, readHex,
      hexValue_hexChar]
    exact congrArg (fun value => readHex more value rest) hvalue

/-- A number that fits its digits is read back from them. -/
theorem readHex_hexDigits_of_lt {digits n : Nat} (h : n < 16 ^ digits) (rest : List Char) :
    readHex digits 0 (hexDigits digits n ++ rest) = some (n, rest) := by
  have hread := readHex_hexDigits digits 0 n 0 rest
  rwa [Nat.mul_zero, Nat.zero_add, Nat.mod_eq_of_lt h] at hread

theorem readFixed_eq_some_iff {fixed text rest : List Char} :
    readFixed fixed text = some rest ↔ text = fixed ++ rest := by
  induction fixed generalizing text with
  | nil => simp [readFixed]
  | cons f fixed ih =>
    cases text with
    | nil => simp [readFixed]
    | cons c text =>
      by_cases hfc : f = c
      · simp [readFixed, hfc, ih]
      · simp [readFixed, hfc, Ne.symm hfc]

@[simp] theorem readFixed_append (fixed rest : List Char) : readFixed fixed (fixed ++ rest) = some rest :=
  readFixed_eq_some_iff.mpr rfl

/-- A text is not read where what it begins with neither begins with the fixed text nor begins it. -/
theorem readFixed_append_eq_none {fixed other : List Char} (h : ¬ fixed <+: other) (h' : ¬ other <+: fixed)
    (rest : List Char) : readFixed fixed (other ++ rest) = none := by
  by_contra hne
  obtain ⟨rest', hread⟩ := Option.ne_none_iff_exists'.mp hne
  have htext := readFixed_eq_some_iff.mp hread
  rcases List.prefix_or_prefix_of_prefix (List.prefix_append other rest) (htext ▸ List.prefix_append fixed rest') with
    hp | hp
  · exact h' hp
  · exact h hp

/-! ### Operands -/

/-- An operand of a kind's width fits the kind's hex digits (R62, R80). -/
theorem OperandKind.pow_digits (k : OperandKind) : 16 ^ OperandKind.digits k = 2 ^ k.width := by
  cases k <;> rfl

/-- Operands of their kinds' widths, one of each kind, are read back from their text. -/
theorem readOperands_operandsText {kinds : List OperandKind} {operands : List Nat}
    (hcount : operands.length = kinds.length) (hfit : ∀ p ∈ kinds.zip operands, p.2 < 2 ^ p.1.width) (sep : List Char) :
    readOperands sep kinds (operandsText sep kinds operands) = some (operands, []) := by
  induction kinds generalizing operands sep with
  | nil =>
    obtain rfl := List.length_eq_zero_iff.mp hcount
    rfl
  | cons k kinds ih =>
    cases operands with
    | nil => cases hcount
    | cons v operands =>
      rw [List.zip_cons_cons, List.forall_mem_cons] at hfit
      obtain ⟨hv, hfit⟩ := hfit
      have hv : v < 16 ^ OperandKind.digits k := OperandKind.pow_digits k ▸ hv
      have hrest := ih (Nat.succ.inj hcount) hfit [',', ' ']
      have htext : operandsText sep (k :: kinds) (v :: operands) = (sep ++ OperandKind.lead k) ++
          (hexDigits (OperandKind.digits k) v ++ operandsText [',', ' '] kinds operands) := List.append_assoc _ _ _
      simp only [htext, readOperands, readFixed_append, readHex_hexDigits_of_lt hv, hrest]

/-! ### Lines -/

/-- No identity's name begins with another one's, so at most one is read from a text. -/
theorem Identity.eq_of_text_prefix {id id' : Identity} (h : Identity.text id <+: Identity.text id') : id = id' := by
  have hfree : ∀ id ∈ Identity.all, ∀ id' ∈ Identity.all, Identity.text id <+: Identity.text id' → id = id' := by decide
  exact hfree id (Identity.mem_all id) id' (Identity.mem_all id') h

/-- An instruction's line is read as its own identity. -/
theorem readAs_text_self (i : Instr) : readAs i.identity (AsmLine.instr i).text = some (.instr i) := by
  obtain ⟨hcount, hfit⟩ := Laws.OperandsFit.ofWellFormed (Instr.wellFormed_eq_true i)
  have hoperands := readOperands_operandsText hcount hfit [' ']
  have hcall : Instr.ofCall ⟨i.identity, i.operands⟩ = some i := Instr.ofCall_call i
  simp only [readAs, AsmLine.text, readFixed_append, hoperands, hcall, Option.map_some]

/-- A line that begins with another text is not read as an identity. -/
theorem readAs_eq_none {id : Identity} {other : List Char} (h : ¬ Identity.text id <+: other)
    (h' : ¬ other <+: Identity.text id) (rest : List Char) : readAs id (other ++ rest) = none := by
  rw [readAs, readFixed_append_eq_none h h']

/-- An instruction's line is read as no other identity. -/
theorem readAs_text_of_ne {id : Identity} {i : Instr} (h : id ≠ i.identity) :
    readAs id (AsmLine.instr i).text = none :=
  readAs_eq_none (fun hp => h (Identity.eq_of_text_prefix hp)) (fun hp => h (Identity.eq_of_text_prefix hp).symm) _

/-- A `DW` line is read as no instruction: no identity's name begins with `D`. -/
theorem readAs_text_word (id : Identity) (w : Word) : readAs id (AsmLine.word w).text = none := by
  cases id <;> rfl

/-- A word's line is read as the word's `DW` directive. -/
theorem readDw_text (w : Word) : readDw (AsmLine.word w).text = some (.word w) := by
  have hdigits := readHex_hexDigits_of_lt (digits := 4) w.isLt []
  rw [List.append_nil] at hdigits
  rw [readDw, AsmLine.text, readFixed_append]
  simp only [hdigits, BitVec.ofNat_toNat, BitVec.setWidth_eq]

theorem readLine_text_instr (i : Instr) : readLine (AsmLine.instr i).text = some (.instr i) := by
  cases hfind : Identity.all.findSome? (readAs · (AsmLine.instr i).text) with
  | none =>
    have hnone := List.findSome?_eq_none_iff.mp hfind i.identity (Identity.mem_all _)
    rw [readAs_text_self] at hnone
    cases hnone
  | some line =>
    obtain ⟨id, -, hread⟩ := List.exists_of_findSome?_eq_some hfind
    by_cases hid : id = i.identity
    · rw [hid, readAs_text_self] at hread
      rw [readLine, hfind, hread]
    · rw [readAs_text_of_ne hid] at hread
      cases hread

theorem readLine_text_word (w : Word) : readLine (AsmLine.word w).text = some (.word w) := by
  have hfind : Identity.all.findSome? (readAs · (AsmLine.word w).text) = none :=
    List.findSome?_eq_none_iff.mpr fun id _ => readAs_text_word id w
  rw [readLine, hfind]
  exact readDw_text w

/-- Settles O58: a line is read as its own identity or as `DW`, and its digits give its operands back. -/
theorem assemblyTextReadsBack : Obligations.AssemblyTextReadsBack := by
  intro line
  cases line with
  | instr i => exact readLine_text_instr i
  | word w => exact readLine_text_word w

end Sys2Proof.Machine
end

section
/-! ## The bounded increment and the skips (spec/40_dispatch.md R104, R105) -/

namespace Sys2Proof.Machine

open Sys2Proof.Safety

/-! ### The bounded increment -/

theorem boundedAdvance_of_le {delta : Nat} {s : State} (h : s.pc.toNat + delta ≤ 0xFFF) :
    boundedAdvance delta s = .next (s.setPc (BitVec.ofNat 16 (s.pc.toNat + delta))) :=
  if_neg (Nat.not_lt.mpr h)

theorem boundedAdvance_of_gt {delta : Nat} {s : State} (h : 0xFFF < s.pc.toNat + delta) :
    boundedAdvance delta s = .fault (.pcOverflow s.pc delta s) :=
  if_pos h

/-- Settles O30: a committed sum is at most 0xFFF, so the 16 bits of PC hold it. -/
theorem boundedAdvanceChecksBeforeCommit : Obligations.BoundedAdvanceChecksBeforeCommit := by
  refine fun delta s => ⟨fun h => ⟨s.pc, delta, boundedAdvance_of_gt h⟩, fun h => ⟨_, boundedAdvance_of_le h, ?_, rfl⟩⟩
  exact (BitVec.toNat_ofNat _ _).trans (Nat.mod_eq_of_lt (Nat.lt_of_le_of_lt h (by decide)))

/-! ### Which sum a skip checks -/

/-- A skip checks PC + 2 or PC (D6). -/
theorem checksAdvance_le_two {policy : SkipOverflowPolicy} {cond : Bool} {delta : Nat}
    (h : ChecksAdvance policy cond delta) : delta ≤ 2 := by
  obtain ⟨rfl, -⟩ | ⟨rfl, -⟩ := h <;> decide

/-- The policy and the condition fix the checked delta. -/
theorem checksAdvance_unique {policy : SkipOverflowPolicy} {cond : Bool} {delta delta' : Nat}
    (h : ChecksAdvance policy cond delta) (h' : ChecksAdvance policy cond delta') : delta = delta' := by
  obtain ⟨rfl, hc⟩ | ⟨rfl, hc, hp⟩ := h <;> obtain ⟨rfl, hc'⟩ | ⟨rfl, hc', hp'⟩ := h'
  · rfl
  · simp [hc', hp'] at hc
  · simp [hc, hp] at hc'
  · rfl

/-- A skip whose checked sum is above the ceiling raises PC_OVERFLOW with PC and the checked delta. -/
theorem skipIf_of_gt {cond : Bool} {s : State} {delta : Nat}
    (hcheck : ChecksAdvance s.params.skipOverflowPolicy cond delta) (hgt : 0xFFF < s.pc.toNat + delta) :
    skipIf cond s = .fault (.pcOverflow s.pc delta s) := by
  have not_committed {delta' : Nat} (h' : ChecksAdvance s.params.skipOverflowPolicy cond delta') :
      ¬ s.advanced delta' ≤ Config.pcCeiling :=
    checksAdvance_unique hcheck h' ▸ Nat.not_le.mpr hgt
  rcases skipIf_cases cond s with ⟨hc, hle, -⟩ | ⟨-, hle, -⟩ | ⟨delta', hcheck', -, e⟩
  · exact absurd hle (not_committed (.inl ⟨rfl, .inl hc⟩))
  · exact absurd (hle delta hcheck) (not_committed hcheck)
  · rw [e, checksAdvance_unique hcheck hcheck']

/-- At PC at most 0xFFD no checked sum is above the ceiling, so every skip completes under every policy. -/
theorem skipIf_of_pc_le {s : State} (hpc : s.pc.toNat ≤ 0xFFD) (cond : Bool) :
    skipIf cond s = .next (s.setPc (if cond then s.pc + 2 else s.pc)) := by
  rcases skipIf_cases cond s with ⟨rfl, -, e⟩ | ⟨rfl, -, e⟩ | ⟨delta, hcheck, hgt, -⟩
  · rw [e, advanced_eq_add, if_pos rfl]
  · exact e
  · have hle := checksAdvance_le_two hcheck
    simp only [State.advanced, Config.pcCeiling] at hgt
    omega

/-- Settles O29: each of the three is the shared skip operation on its condition. -/
theorem skipsCompleteBelowCeiling : Obligations.SkipsCompleteBelowCeiling := by
  intro x y kk s hpc
  have of_isSkip {cond : Bool} {i : Instr} (h : IsSkip cond i s) :
      exec i s = .next (s.setPc (if cond then s.pc + 2 else s.pc)) :=
    (exec_of_isSkip h).trans (skipIf_of_pc_le hpc cond)
  rw [of_isSkip (.inl ⟨x, kk, rfl, rfl⟩), of_isSkip (.inr (.inl ⟨x, kk, rfl, rfl⟩)),
    of_isSkip (.inr (.inr ⟨x, y, rfl, rfl⟩))]
  simp only [decide_eq_true_eq, ne_eq, ite_not, State.setPc, and_self]

end Sys2Proof.Machine
end

section
/-! ## The errors of an instruction and of a step (spec/40_dispatch.md R108, R109; spec/60_exceptions.md R200, R201) -/

namespace Sys2Proof.Machine

open Sys2Proof.Safety

/-- A skip's only error is PC_OVERFLOW with the checked delta. -/
theorem skipIf_eq_fault {cond : Bool} {s : State} {f : Fault} (h : skipIf cond s = .fault f) :
    ∃ delta, ChecksAdvance s.params.skipOverflowPolicy cond delta ∧ 0xFFF < s.pc.toNat + delta ∧
      f = .pcOverflow s.pc delta s := by
  rcases skipIf_cases cond s with ⟨-, -, e⟩ | ⟨-, -, e⟩ | ⟨delta, hcheck, hgt, e⟩ <;> rw [e] at h <;> cases h
  exact ⟨delta, hcheck, hgt, rfl⟩

/-- Every error an instruction can raise, with its condition; each leaves the state as it was. -/
theorem exec_fault_cases {i : Instr} {s : State} {f : Fault} (h : exec i s = .fault f) :
    (i = .ret ∧ s.sp = -1 ∧ f = .emptyStack s) ∨
      ((∃ a, i = .callAddr a) ∧ s.sp = 15 ∧ f = .fullStack s) ∨
      ∃ cond delta, IsSkip cond i s ∧ ChecksAdvance s.params.skipOverflowPolicy cond delta ∧
        0xFFF < s.pc.toNat + delta ∧ f = .pcOverflow s.pc delta s := by
  have of_skip {cond : Bool} (hs : IsSkip cond i s) :
      ∃ cond delta, IsSkip cond i s ∧ ChecksAdvance s.params.skipOverflowPolicy cond delta ∧
        0xFFF < s.pc.toNat + delta ∧ f = .pcOverflow s.pc delta s := by
    obtain ⟨delta, hf⟩ := skipIf_eq_fault (exec_of_isSkip hs ▸ h)
    exact ⟨cond, delta, hs, hf⟩
  cases i with
  | cls => cases h
  | ret =>
    rcases execRet_cases s with ⟨hsp, e⟩ | ⟨k, -, e⟩ <;> simp only [exec, e] at h <;> cases h
    exact .inl ⟨rfl, hsp, rfl⟩
  | jmpAddr a => cases h
  | callAddr a =>
    rcases execCallAddr_cases a s with ⟨hsp, e⟩ | ⟨k, -, e⟩ <;> simp only [exec, e] at h <;> cases h
    exact .inr (.inl ⟨⟨a, rfl⟩, hsp, rfl⟩)
  | seVxByte x kk => exact .inr (.inr (of_skip (.inl ⟨x, kk, rfl, rfl⟩)))
  | sneVxByte x kk => exact .inr (.inr (of_skip (.inr (.inl ⟨x, kk, rfl, rfl⟩))))
  | seVxVy x y => exact .inr (.inr (of_skip (.inr (.inr ⟨x, y, rfl, rfl⟩))))
  | ldVxByte x kk => cases h

/-- Settles O31: of an instruction's errors only a skip's is PC_OVERFLOW, and a skip raises it where its checked sum is
above the ceiling. -/
theorem pcOverflowCarriesPcAndDelta : Obligations.PcOverflowCarriesPcAndDelta := by
  refine ⟨fun i s after pc delta => ⟨fun h => ?raised, ?raises⟩, fun delta s => boundedAdvance_of_gt⟩
  case raised =>
    obtain ⟨-, -, hf⟩ | ⟨-, -, hf⟩ | ⟨cond, delta', hskip, hcheck, hgt, hf⟩ := exec_fault_cases h <;> cases hf
    exact ⟨cond, hskip, hcheck, hgt, rfl, rfl⟩
  case raises =>
    rintro ⟨cond, hskip, hcheck, hgt, rfl, rfl⟩
    exact (exec_of_isSkip hskip).trans (skipIf_of_gt hcheck hgt)

/-- R109: an instruction's error leaves the state as it was. -/
theorem exec_fault_after {i : Instr} {s : State} {f : Fault} (h : exec i s = .fault f) : f.after = s := by
  obtain ⟨-, -, rfl⟩ | ⟨-, -, rfl⟩ | ⟨_, _, -, -, -, rfl⟩ := exec_fault_cases h <;> rfl

/-- Settles O20: an error of `execute` is ARITY, which changes nothing, or the instruction's own. -/
theorem executeErrorsAreAllOrNothing : Obligations.ExecuteErrorsAreAllOrNothing := by
  refine fun s f => ⟨fun i => exec_fault_after, fun c h => ?_⟩
  rcases execute_cases c s with e | e | ⟨i, -, e⟩ <;> rw [e] at h
  · cases h
    rfl
  · cases h
  · exact exec_fault_after h

/-- Every error a step can end in: the fetch's, the decoder's, or the instruction's on the state the fetch left. -/
theorem step_fault_cases {s : State} {f : Fault} (h : step s = .fault f) :
    (0xFFE < s.pc.toNat ∧ f = .fetchOob s.pc s) ∨
      (s.pc.toNat ≤ 0xFFE ∧ decodeWord s.params.seVxVyMask s.opcodeAtPc = none ∧
        f = .decode s.opcodeAtPc (s.setPc (s.pc + 2))) ∨
      ∃ i, s.pc.toNat ≤ 0xFFE ∧ decodeWord s.params.seVxVyMask s.opcodeAtPc = some i ∧
        exec i (s.setPc (s.pc + 2)) = .fault f := by
  unfold step at h
  rcases step_cases s with ⟨habove, e⟩ | ⟨hle, hd, e⟩ | ⟨i, hle, hd, e⟩ <;> rw [e] at h
  · cases h
    exact .inl ⟨habove, rfl⟩
  · cases h
    exact .inr (.inl ⟨hle, hd, congrArg (Fault.decode _ <| s.setPc ·) (advanced_eq_add s)⟩)
  · exact .inr (.inr ⟨i, hle, hd, advanced_eq_add s ▸ h⟩)

/-- Settles O14: FETCH_OOB leaves the state, and every later error the state the fetch left. -/
theorem stepErrorKeepsOnlyFetchAdvance : Obligations.StepErrorKeepsOnlyFetchAdvance := by
  intro s f h
  obtain ⟨habove, rfl⟩ | ⟨hle, -, rfl⟩ | ⟨i, hle, -, hi⟩ := step_fault_cases h
  · exact ⟨fun _ => rfl, fun hle => absurd habove (Nat.not_lt.mpr hle)⟩
  · exact ⟨fun habove => absurd habove (Nat.not_lt.mpr hle), fun _ => rfl⟩
  · exact ⟨fun habove => absurd habove (Nat.not_lt.mpr hle), fun _ => exec_fault_after hi⟩

end Sys2Proof.Machine
end

section
/-! ## `execute` on any call (spec/40_dispatch.md R100 to R103) -/

namespace Sys2Proof

theorem Call.arityOk_iff {c : Call} : c.arityOk = true ↔ c.operands.length = c.identity.arity := beq_iff_eq

theorem Call.wellFormed_iff {c : Call} :
    c.wellFormed = true ↔ c.operands.length = c.identity.arity ∧
      ∀ p ∈ c.identity.kinds.zip c.operands, p.2 < 2 ^ p.1.width := by
  rw [Call.wellFormed, Bool.and_eq_true, Call.arityOk_iff, Call.operandsInWidth_iff]

end Sys2Proof

namespace Sys2Proof.Machine

/-- Settles O17: the count is checked first. -/
theorem wrongOperandCountRaisesArity : Obligations.WrongOperandCountRaisesArity :=
  fun _ _ _ h => if_neg (mt Call.arityOk_iff.mp h)

/-- A call with the right count that is no instruction's is refused (R103). -/
theorem execute_of_ofCall_eq_none {c : Call} (hcount : c.operands.length = c.identity.arity)
    (h : Instr.ofCall c = none) (s : State) : execute c s = .refused (.operandOutOfRange c) := by
  rw [execute, if_pos (Call.arityOk_iff.mpr hcount), h]

/-- Settles O18: an instruction's operands all fit, so a call with a wide one is no instruction's. -/
theorem wideOperandIsRefused : Obligations.WideOperandIsRefused := by
  rintro c s hcount ⟨p, hp, hwide⟩
  refine execute_of_ofCall_eq_none hcount (Option.eq_none_iff_forall_ne_some.mpr fun i hi => ?_) s
  have hfits := (Call.wellFormed_iff.mp (Instr.wellFormed_of_ofCall hi)).2 p hp
  exact Nat.not_lt.mpr hwide hfits

/-- Settles O19: a well-formed call is some instruction's. -/
theorem executeSelectsTheArm : Obligations.ExecuteSelectsTheArm := by
  intro c s hcount hfits
  obtain ⟨i, hi⟩ := Instr.ofCall_isSome (Call.wellFormed_iff.mpr ⟨hcount, hfits⟩)
  have hcall : i.call = c := Instr.call_of_ofCall hi
  exact ⟨i, congrArg Call.identity hcall, congrArg Call.operands hcall, execute_ofCall hi s⟩

end Sys2Proof.Machine
end

section
/-! ## `readOpcode`, `next` and the ports (spec/40_dispatch.md R106, R107, R112) -/

namespace Sys2Proof.Machine

/-! ### The fetch -/

theorem readOpcode_of_pc_le {s : State} (h : s.pc.toNat ≤ 0xFFE) :
    readOpcode s = .ok (s.opcodeAtPc, s.setPc (s.pc + 2)) := by
  rcases readOpcode_cases s with ⟨habove, -⟩ | ⟨-, e⟩
  · omega
  · rw [e, advanced_eq_add]

theorem readOpcode_of_pc_above {s : State} (h : 0xFFE < s.pc.toNat) :
    readOpcode s = .error (.fetchOob s.pc s) :=
  if_pos h

/-- Settles O10: the fetch on both sides of its bound. -/
theorem fetchAdvancesOrFaults : Obligations.FetchAdvancesOrFaults :=
  fun _ => ⟨readOpcode_of_pc_le, fun h => ⟨readOpcode_of_pc_above h, step_of_pc_above h⟩⟩

/-- A fetch leaves the parameters. -/
theorem readOpcode_params {s s' : State} {w : Word} (h : readOpcode s = .ok (w, s')) : s'.params = s.params := by
  rcases readOpcode_cases s with ⟨-, e⟩ | ⟨-, e⟩ <;> rw [e] at h <;> cases h
  rfl

/-! ### Decode and execute -/

theorem decodeAndExecute_of_decodeWord {w : Word} {s : State} {i : Instr}
    (h : decodeWord s.params.seVxVyMask w = some i) : decodeAndExecute w s = exec i s := by
  rw [decodeAndExecute, h]

/-- Settles O11: the fetch leaves the parameters, so the word decodes to the same instruction after it. -/
theorem stepRunsDecodedInstruction : Obligations.StepRunsDecodedInstruction :=
  fun _ _ hpc h => (step_of_pc_le hpc).trans (decodeAndExecute_of_decodeWord h)

/-- A word that does not decode raises DECODE (R70). -/
theorem decodeAndExecute_of_decodeCall_eq_none {w : Word} {s : State}
    (h : decodeCall s.params.seVxVyMask w = none) : decodeAndExecute w s = .fault (.decode w s) := by
  rw [decodeAndExecute, decodeWord, h]
  rfl

/-- A word that decodes to a call is executed as that call: the decoded call is an instruction's. -/
theorem decodeAndExecute_of_decodeCall_eq_some {w : Word} {s : State} {c : Call}
    (h : decodeCall s.params.seVxVyMask w = some c) : decodeAndExecute w s = execute c s := by
  obtain ⟨id, hmatch, rfl⟩ := decodeCall_eq_some_iff.mp h
  have hword := decodeWord_eq_some_iff.mpr ⟨id, hmatch, rfl⟩
  rw [decodeAndExecute_of_decodeWord hword, execute_ofCall (Instr.ofCall_call _)]

theorem step_of_readOpcode_eq_error {s : State} {f : Fault} (h : readOpcode s = .error f) : step s = .fault f := by
  rw [step, next, h]

theorem step_of_readOpcode_eq_ok {s s' : State} {w : Word} (h : readOpcode s = .ok (w, s')) :
    step s = decodeAndExecute w s' := by
  rw [step, next, h]

/-- Settles O12: the fetch's error, the decoder's, or the decoded call on the state the fetch left. -/
theorem nextComposesFetchDecodeExecute : Obligations.NextComposesFetchDecodeExecute := by
  refine fun s => ⟨fun f => step_of_readOpcode_eq_error, fun w s' hfetch => ?_⟩
  rw [step_of_readOpcode_eq_ok hfetch, ← readOpcode_params hfetch]
  exact ⟨fun h => ⟨s', decodeAndExecute_of_decodeCall_eq_none h⟩, fun c => decodeAndExecute_of_decodeCall_eq_some⟩

/-! ### The ports -/

theorem transact_next {r : PortRequest} (hop : r.op = 1) (s : State) : transact r s = respond s (step s) := by
  rw [transact, hop]
  rfl

/-- CLS adds one output event, and no other instruction adds any (R120). -/
theorem exec_outputs {i : Instr} {s t : State} (h : exec i s = .next t) :
    t.outputs = if i = .cls then s.outputs ++ [.clearScreen] else s.outputs := by
  have skip_keeps {cond : Bool} (hs : skipIf cond s = .next t) : t.outputs = s.outputs := by
    obtain ⟨-, rfl, -⟩ | ⟨-, rfl⟩ := skipIf_eq_next hs <;> rfl
  cases i with
  | cls => cases h; rfl
  | ret =>
    rcases execRet_cases s with ⟨-, e⟩ | ⟨k, -, e⟩ <;> simp only [exec, e] at h <;> cases h
    rfl
  | jmpAddr a => cases h; rfl
  | callAddr a =>
    rcases execCallAddr_cases a s with ⟨-, e⟩ | ⟨k, -, e⟩ <;> simp only [exec, e] at h <;> cases h
    rfl
  | seVxByte x kk => exact skip_keeps h
  | sneVxByte x kk => exact skip_keeps h
  | seVxVy x y => exact skip_keeps h
  | ldVxByte x kk => cases h; rfl

/-- A completed step adds an output event exactly when it ran CLS. -/
theorem step_outputs_length_ne_iff {s t : State} (h : step s = .next t) :
    t.outputs.length ≠ s.outputs.length ↔ decodeWord s.params.seVxVyMask s.opcodeAtPc = some .cls := by
  obtain ⟨i, hd, hi⟩ := exec_of_step_eq_next h
  rw [exec_outputs hi, hd, Option.some.injEq, State.setPc_outputs]
  by_cases hcls : i = .cls <;> simp [hcls]

/-- The five kinds of error a step can end in, with their codes (R200). -/
theorem step_fault_code {s : State} {f : Fault} (h : step s = .fault f) :
    (∃ w t, f = .decode w t ∧ f.code = 1) ∨ (∃ t, f = .emptyStack t ∧ f.code = 3) ∨
      (∃ t, f = .fullStack t ∧ f.code = 4) ∨ (∃ pc delta t, f = .pcOverflow pc delta t ∧ f.code = 5) ∨
      ∃ pc t, f = .fetchOob pc t ∧ f.code = 6 := by
  obtain ⟨-, rfl⟩ | ⟨-, -, rfl⟩ | ⟨i, -, -, hi⟩ := step_fault_cases h
  · exact .inr (.inr (.inr (.inr ⟨_, _, rfl, rfl⟩)))
  · exact .inl ⟨_, _, rfl, rfl⟩
  · obtain ⟨-, -, rfl⟩ | ⟨-, -, rfl⟩ | ⟨_, _, -, -, -, rfl⟩ := exec_fault_cases hi
    · exact .inr (.inl ⟨_, rfl, rfl⟩)
    · exact .inr (.inr (.inl ⟨_, rfl, rfl⟩))
    · exact .inr (.inr (.inr (.inl ⟨_, _, _, rfl, rfl⟩)))

/-- Settles O56: the response is read off the step's outcome, and `cls_req` off the outputs it added. -/
theorem portReportsTheStep : Obligations.PortReportsTheStep := by
  intro r s hop
  rw [transact_next hop]
  refine ⟨fun f h => ⟨?_, step_fault_code h⟩, fun t h => ⟨t.outputs.length != s.outputs.length, ?_, ?_⟩⟩
  · rw [h, respond]
  · rw [h, respond]
  · rw [bne_iff_ne, step_outputs_length_ne_iff h]

end Sys2Proof.Machine
end

section
/-! ## The control flow instructions (spec/41_control_flow.md R120 to R123) -/

namespace Sys2Proof.Machine

open Sys2Proof.Safety

/-! ### RET and CALL_ADDR at each SP -/

theorem exec_ret_of_sp_eq {s : State} {k : Fin Config.stackDepth} (h : s.sp = (k.val : Int)) :
    exec .ret s = .next (s.popInto k) := by
  rw [exec, execRet, State.topSlot_eq_some.mpr h]

theorem exec_ret_of_empty {s : State} (h : s.sp = -1) : exec .ret s = .fault (.emptyStack s) := by
  rw [exec, execRet, State.topSlot_eq_none.mpr h, raise]

theorem exec_callAddr_of_sp_eq {s : State} {k : Fin Config.stackDepth} (a : Address) (h : s.sp + 1 = (k.val : Int)) :
    exec (.callAddr a) s = .next (s.pushAndJump k (addressValue a)) := by
  rw [exec, execCallAddr, State.freeSlot_eq_some.mpr h]

theorem exec_callAddr_of_full {s : State} (a : Address) (h : s.sp = 15) :
    exec (.callAddr a) s = .fault (.fullStack s) := by
  rw [exec, execCallAddr, State.freeSlot_eq_none.mpr h, raise]

/-- RET completes only by a pop of the slot SP names. -/
theorem exec_ret_eq_next {s t : State} (h : exec .ret s = .next t) :
    ∃ k : Fin Config.stackDepth, s.sp = (k.val : Int) ∧ t = s.popInto k := by
  rcases execRet_cases s with ⟨-, e⟩ | ⟨k, hk, e⟩ <;> cases e.symm.trans h
  exact ⟨k, hk, rfl⟩

/-- CALL_ADDR completes only by a push to the slot above SP and the jump. -/
theorem exec_callAddr_eq_next {a : Address} {s t : State} (h : exec (.callAddr a) s = .next t) :
    ∃ k : Fin Config.stackDepth, s.sp + 1 = (k.val : Int) ∧ t = s.pushAndJump k (addressValue a) := by
  rcases execCallAddr_cases a s with ⟨-, e⟩ | ⟨k, hk, e⟩ <;> cases e.symm.trans h
  exact ⟨k, hk, rfl⟩

/-! ### A call and the return from it -/

/-- The pop that undoes a push leaves one trace, the zero in the slot the push had taken. -/
theorem popInto_pushAndJump {s : State} {k : Fin Config.stackDepth} (h : s.sp + 1 = (k.val : Int)) (target : Word) :
    (s.pushAndJump k target).popInto k = s.setSlot k 0 := by
  have hpc : (s.pushAndJump k target).slot k = s.pc := by rw [State.slot_pushAndJump, if_pos rfl]
  have hdepth : k.castSucc = s.depth := by
    apply Fin.ext
    simp only [State.sp] at h
    rw [Fin.val_castSucc]
    omega
  rw [State.popInto, hpc, hdepth]
  simp only [State.pushAndJump, State.setSlot, State.setDepth, State.setPc, Vector.set_set]

/-- Settles O34: RET finds the slot the call pushed to, and its pop undoes the push. -/
theorem callThenRetComesBack : Obligations.CallThenRetComesBack := by
  intro a s k hk
  have hret : exec .ret (s.pushAndJump k (addressValue a)) = .next (s.setSlot k 0) := by
    rw [exec_ret_of_sp_eq (State.sp_pushAndJump s k _), popInto_pushAndJump hk]
  refine ⟨_, s.setSlot k 0, exec_callAddr_of_sp_eq a hk, hret, rfl, rfl, ?freed, fun j hj => ?kept, rfl⟩
  case freed => rw [State.slot_setSlot, if_pos rfl]
  case kept => rw [State.slot_setSlot, if_neg hj]

/-! ### Frames -/

/-- A skip that completes changes at most PC (R140 to R142). -/
theorem exec_isSkip_eq_next {cond : Bool} {i : Instr} {s t : State} (hskip : IsSkip cond i s)
    (h : exec i s = .next t) : ∃ p, t = s.setPc p := by
  rw [exec_of_isSkip hskip] at h
  obtain ⟨-, ht, -⟩ | ⟨-, ht⟩ := skipIf_eq_next h
  · exact ⟨_, ht⟩
  · exact ⟨s.pc, ht⟩

/-- Settles O35: a jump and a completed skip only set PC. -/
theorem jumpAndSkipFrame : Obligations.JumpAndSkipFrame := by
  intro i s t hi h
  have hpc : ∃ p, t = s.setPc p := by
    obtain ⟨a, rfl⟩ | ⟨x, kk, rfl⟩ | ⟨x, kk, rfl⟩ | ⟨x, y, rfl⟩ := hi
    · cases h
      exact ⟨_, rfl⟩
    · exact exec_isSkip_eq_next (.inl ⟨x, kk, rfl, rfl⟩) h
    · exact exec_isSkip_eq_next (.inr (.inl ⟨x, kk, rfl, rfl⟩)) h
    · exact exec_isSkip_eq_next (.inr (.inr ⟨x, y, rfl, rfl⟩)) h
  obtain ⟨p, rfl⟩ := hpc
  exact ⟨fun _ => rfl, fun _ => rfl, fun _ => rfl, rfl⟩

/-- Settles O36: RET is a pop from the slot of SP, CALL_ADDR a push to the slot above it. -/
theorem callAndRetFrame : Obligations.CallAndRetFrame := by
  rintro i s t (rfl | ⟨a, rfl⟩) h
  · obtain ⟨k, hk, rfl⟩ := exec_ret_eq_next h
    refine ⟨fun _ => rfl, fun _ => rfl, fun j hj _ => ?_, rfl⟩
    have hjk : j ≠ k := fun e => hj rfl (e ▸ hk.symm)
    rw [State.slot_popInto, if_neg hjk]
  · obtain ⟨k, hk, rfl⟩ := exec_callAddr_eq_next h
    refine ⟨fun _ => rfl, fun _ => rfl, fun j _ hj => ?_, rfl⟩
    have hjk : j ≠ k := fun e => hj nofun (e ▸ hk.symm)
    rw [State.slot_pushAndJump, if_neg hjk]

/-! ### The four instructions -/

/-- Settles O21: the arm is the one event. -/
theorem clsCallsClearScreenOnce : Obligations.ClsCallsClearScreenOnce :=
  ⟨wrongOperandCountRaisesArity .cls, fun _ => rfl⟩

/-- Settles O22: on the empty stack the error, else the pop from the slot of SP. -/
theorem retPopsReturnAddress : Obligations.RetPopsReturnAddress := by
  refine ⟨wrongOperandCountRaisesArity .ret, fun _ => exec_ret_of_empty, fun s k hk => ?_⟩
  refine ⟨s.popInto k, exec_ret_of_sp_eq hk, State.sp_popInto s k, rfl, ?freed, fun j hj => ?kept, rfl⟩
  case freed => rw [State.slot_popInto, if_pos rfl]
  case kept => rw [State.slot_popInto, if_neg hj]

/-- Settles O23: no 12-bit address is cut by the extension to 16 bits. -/
theorem jmpLoadsAddress : Obligations.JmpLoadsAddress :=
  ⟨wrongOperandCountRaisesArity .jmpAddr, fun a _ => ⟨rfl, toNat_addressValue a⟩⟩

/-- Settles O24: on the full stack the error, else the push to the slot above SP and the jump. -/
theorem callPushesPcAndJumps : Obligations.CallPushesPcAndJumps := by
  refine ⟨wrongOperandCountRaisesArity .callAddr, fun a _ => exec_callAddr_of_full a, fun a s k hk => ?_⟩
  refine ⟨s.pushAndJump k (addressValue a), exec_callAddr_of_sp_eq a hk, ?sp, ?pushed, rfl, fun j hj => ?kept, rfl⟩
  case sp => rw [State.sp_pushAndJump, hk]
  case pushed => rw [State.slot_pushAndJump, if_pos rfl]
  case kept => rw [State.slot_pushAndJump, if_neg hj]

end Sys2Proof.Machine
end

section
/-! ## The conditional skips (spec/42_conditional_skips.md R140 to R142) -/

namespace Sys2Proof.Machine

open Sys2Proof.Safety

/-- A skip whose condition is false changes nothing where no sum it checks is above the ceiling (R105). -/
theorem skipIf_false_of_le {s : State}
    (hle : ∀ delta, ChecksAdvance s.params.skipOverflowPolicy false delta → s.pc.toNat + delta ≤ 0xFFF) :
    skipIf false s = .next s := by
  rcases skipIf_cases false s with ⟨hc, -⟩ | ⟨-, -, e⟩ | ⟨delta, hcheck, hgt, -⟩
  · cases hc
  · exact e
  · exact absurd (hle delta hcheck) (Nat.not_le.mpr hgt)

/-- R105's table: which sum is checked follows from the condition and the policy, and the outcome from that sum. -/
theorem skipIf_contract (cond : Bool) (s : State) : SkipContract cond s (skipIf cond s) := by
  have overflows {delta : Nat} (hcheck : ChecksAdvance s.params.skipOverflowPolicy cond delta)
      (hgt : 0xFFF < s.pc.toNat + delta) : IsPcOverflow s (skipIf cond s) :=
    ⟨s.pc, delta, skipIf_of_gt hcheck hgt⟩
  constructor
  case taken =>
    rintro rfl hle
    exact skipIf_of_pc_le (Nat.le_sub_of_add_le hle) true
  case overflow => exact fun hc => overflows (.inl ⟨rfl, .inl hc⟩)
  case onSkipOnly =>
    rintro rfl hp
    exact skipIf_false_of_le (by simp [ChecksAdvance, hp])
  case zeroDelta =>
    rintro rfl hp hle
    refine skipIf_false_of_le fun delta hcheck => ?_
    rw [checksAdvance_unique hcheck (.inr ⟨rfl, rfl, hp⟩)]
    exact hle
  case zeroDeltaOverflow => exact fun hc hp => overflows (.inr ⟨rfl, hc, hp⟩)
  case checkAlways =>
    rintro rfl - hle
    exact skipIf_of_pc_le (Nat.le_sub_of_add_le hle) false
  case checkAlwaysOverflow => exact fun _ hp => overflows (.inl ⟨rfl, .inr hp⟩)

/-- Each skip instruction meets the contract with its own condition. -/
theorem exec_skipContract {cond : Bool} {i : Instr} {s : State} (h : IsSkip cond i s) :
    SkipContract cond s (exec i s) :=
  exec_of_isSkip h ▸ skipIf_contract cond s

/-- Settles O25: the skip whose condition is that register and byte are equal. -/
theorem seVxByteSkipsOnEqual : Obligations.SeVxByteSkipsOnEqual :=
  ⟨wrongOperandCountRaisesArity .seVxByte, fun x kk _ => exec_skipContract (.inl ⟨x, kk, rfl, rfl⟩)⟩

/-- Settles O26: the skip whose condition is that register and byte differ. -/
theorem sneVxByteSkipsOnDifferent : Obligations.SneVxByteSkipsOnDifferent :=
  ⟨wrongOperandCountRaisesArity .sneVxByte, fun x kk _ => exec_skipContract (.inr (.inl ⟨x, kk, rfl, rfl⟩))⟩

/-- Settles O27: the skip whose condition is that the two registers are equal. -/
theorem seVxVySkipsOnEqual : Obligations.SeVxVySkipsOnEqual :=
  ⟨wrongOperandCountRaisesArity .seVxVy, fun x y _ => exec_skipContract (.inr (.inr ⟨x, y, rfl, rfl⟩))⟩

/-- Settles O32: the fetch's 2 leaves PC at most 0xFFD, where a skip completes under every policy. -/
theorem stepOverSkipAdvancesByFourOrTwo : Obligations.StepOverSkipAdvancesByFourOrTwo := by
  intro s i cond hpc hdecode hskip
  have hfetch : s.pc.toNat ≤ 0xFFE := by omega
  have hfetched : (s.setPc (s.pc + 2)).pc.toNat ≤ 0xFFD := by
    rw [State.setPc_pc, toNat_pc_add_two hfetch]
    omega
  have hskip' : IsSkip cond i (s.setPc (s.pc + 2)) := hskip
  have hfour : s.pc + 2 + 2 = s.pc + 4 := BitVec.add_assoc s.pc 2 2
  calc step s
    _ = exec i (s.setPc (s.pc + 2)) := stepRunsDecodedInstruction s i hfetch hdecode
    _ = skipIf cond (s.setPc (s.pc + 2)) := exec_of_isSkip hskip'
    _ = .next (s.setPc (if cond then s.pc + 2 + 2 else s.pc + 2)) := skipIf_of_pc_le hfetched cond
    _ = .next (s.setPc (if cond then s.pc + 4 else s.pc + 2)) := by rw [hfour]

end Sys2Proof.Machine
end

section
/-! ## LD_VX_BYTE, and its frame with that of CLS (spec/43_load.md R160, spec/41_control_flow.md R120) -/

namespace Sys2Proof.Machine

theorem exec_ldVxByte (x : RegNum) (kk : Byte) (s : State) : exec (.ldVxByte x kk) s = .next (s.writeV x kk) := rfl

/-- LD_VX_BYTE completes only by its one register write. -/
theorem exec_ldVxByte_eq_next {x : RegNum} {kk : Byte} {s t : State} (h : exec (.ldVxByte x kk) s = .next t) :
    t = s.writeV x kk := by
  cases (exec_ldVxByte x kk s).symm.trans h
  rfl

/-- CLS completes only by its one event. -/
theorem exec_cls_eq_next {s t : State} (h : exec .cls s = .next t) : t = s.emit .clearScreen := by
  cases (clsCallsClearScreenOnce.2 s).symm.trans h
  rfl

theorem State.readV_writeV_of_ne {x y : RegNum} (h : y ≠ x) (s : State) (b : Byte) :
    (s.writeV x b).readV y = s.readV y := by
  rw [State.readV_writeV, if_neg h]

/-- Settles O28: the next state is the write of the byte to `V[x]`. -/
theorem ldStoresByteInRegister : Obligations.LdStoresByteInRegister := by
  refine ⟨wrongOperandCountRaisesArity .ldVxByte, fun x kk s => ?_⟩
  refine ⟨s.writeV x kk, exec_ldVxByte x kk s, ?stored, fun y hy => State.readV_writeV_of_ne hy s kk, rfl⟩
  case stored => rw [State.readV_writeV, if_pos rfl]

/-- Settles O37: LD_VX_BYTE is one register write, CLS one event. -/
theorem loadAndClsFrame : Obligations.LoadAndClsFrame := by
  refine fun s t => ⟨fun x kk h => ?load, fun h => ?cls⟩
  case load =>
    obtain rfl := exec_ldVxByte_eq_next h
    exact ⟨State.writeV_byteAt s x kk, fun y hy => State.readV_writeV_of_ne hy s kk, State.writeV_slot s x kk, rfl⟩
  case cls =>
    obtain rfl := exec_cls_eq_next h
    exact ⟨State.emit_byteAt s _, State.emit_readV s _, State.emit_slot s _, rfl⟩

end Sys2Proof.Machine
end

section
/-! ## The order of a step's checks (spec/60_exceptions.md R202) -/

namespace Sys2Proof.Machine

open Sys2Proof.Safety

/-- A skip is one of the three instructions of R140 to R142. -/
theorem instr_of_isSkip {cond : Bool} {i : Instr} {s : State} (h : IsSkip cond i s) :
    (∃ x kk, i = .seVxByte x kk) ∨ (∃ x kk, i = .sneVxByte x kk) ∨ ∃ x y, i = .seVxVy x y := by
  obtain ⟨x, kk, rfl, -⟩ | ⟨x, kk, rfl, -⟩ | ⟨x, y, rfl, -⟩ := h
  · exact .inl ⟨x, kk, rfl⟩
  · exact .inr (.inl ⟨x, kk, rfl⟩)
  · exact .inr (.inr ⟨x, y, rfl⟩)

/-- A checked sum above the ceiling is of a PC above 0xFFD, since no policy checks more than PC + 2 (R104, R105). -/
theorem pc_gt_of_checksAdvance {policy : SkipOverflowPolicy} {cond : Bool} {delta pc : Nat}
    (hcheck : ChecksAdvance policy cond delta) (hgt : 0xFFF < pc + delta) : 0xFFD < pc := by
  have hle := checksAdvance_le_two hcheck
  omega

/-- Settles O15: an instruction's own check reads PC as the fetch left it, 2 past the opcode, and SP as it stood before
the step. -/
theorem stepErrorsFollowTheOrder : Obligations.StepErrorsFollowTheOrder := by
  intro s f h
  obtain hfetch | ⟨hle, hd, rfl⟩ | ⟨i, hle, hd, hi⟩ := step_fault_cases h
  · exact .inl hfetch
  · exact .inr (.inl ⟨hle, hd, rfl⟩)
  · refine .inr (.inr ⟨hle, i, hd, ?_⟩)
    obtain ⟨hret, hsp, rfl⟩ | ⟨hcall, hsp, rfl⟩ | ⟨cond, delta, hskip, hcheck, hgt, rfl⟩ := exec_fault_cases hi
    · exact .inl ⟨hret, hsp, rfl⟩
    · exact .inr (.inl ⟨hcall, hsp, rfl⟩)
    · rw [State.setPc_pc, toNat_pc_add_two hle] at hgt
      exact .inr (.inr ⟨instr_of_isSkip hskip, pc_gt_of_checksAdvance hcheck hgt, _, _, rfl⟩)

end Sys2Proof.Machine
end

section
/-! ## The end of a run, and reset (spec/70_reset_and_hazards.md R240, R245) -/

namespace Sys2Proof.Machine

open Sys2Proof.Safety

/-! ### A self-jump is a fixed point of the step -/

/-- JMP_ADDR overwrites the PC the fetch has advanced, so a jump to its own address undoes the fetch. -/
theorem step_of_atSelfJump {s : State} (h : AtSelfJump s) : step s = .next s := by
  obtain ⟨hfetch, a, hopcode, htarget⟩ := h
  have hdecode : decodeWord s.params.seVxVyMask s.opcodeAtPc = some (.jmpAddr a) := by
    rw [hopcode, decodeWord_encode]
  have hpc : addressValue a = s.pc := BitVec.eq_of_toNat_eq ((toNat_addressValue a).trans htarget)
  calc step s
    _ = exec (.jmpAddr a) (s.setPc (s.pc + 2)) := stepRunsDecodedInstruction s _ hfetch hdecode
    _ = .next ((s.setPc (s.pc + 2)).setPc (addressValue a)) := (jmpLoadsAddress.2 a _).1
    _ = .next s := by rw [State.setPc_setPc, hpc, State.setPc_self]

/-- A run from a fixed point of the step stays there. -/
theorem run_of_step_eq_self {s : State} (h : step s = .next s) (n : Nat) : Sys2Proof.core.run n s = .next s := by
  induction n with
  | zero => rfl
  | succ n ih => rw [run_succ_of_next h, ih]

/-- Settles O55: the state is a fixed point of the step. -/
theorem selfJumpLeavesStateUnchanged : Obligations.SelfJumpLeavesStateUnchanged :=
  fun _ h => run_of_step_eq_self (step_of_atSelfJump h)

/-! ### Reset -/

/-- Every stack slot is zero at reset (decision D8). -/
@[simp] theorem State.reset_slot (k : Fin Config.stackDepth) : State.reset.slot k = 0 :=
  Vector.getElem_replicate k.isLt

/-- Settles O44: the bound on PC is that of its start address, and a zero slot meets both of the slots' invariants. -/
theorem resetMeetsInvariants : Obligations.ResetMeetsInvariants where
  memory := reset_wf
  stack := fun k _ => State.reset_slot k
  reach := ⟨by decide, fun k => by simp⟩

/-- Settles O48: the state is the one `hostReset` builds, and SP in it is that of reset. -/
theorem hostResetRecreatesState : Obligations.HostResetRecreatesState := by
  intro s
  obtain ⟨-, -, -, hsp⟩ := resetStateOfTheSource
  exact ⟨rfl, hsp⟩

end Sys2Proof.Machine
end

section
/-! ## The two byte skips together (R141), reset by decision D8, and vectors of spec/95_test_vectors.md -/

namespace Sys2Proof.Machine

/-- Settles O33: below the ceiling both skips complete, and their conditions are each other's negation. -/
theorem exactlyOneOfSeAndSneSkips : Obligations.ExactlyOneOfSeAndSneSkips := by
  intro x kk s hpc
  obtain ⟨hse, hsne, -⟩ := skipsCompleteBelowCeiling x 0 kk s hpc
  by_cases heq : s.readV x = kk
  · rw [if_pos heq] at hse hsne
    exact .inl ⟨hse, hsne⟩
  · rw [if_neg heq] at hse hsne
    exact .inr ⟨hse, hsne⟩

/-- Settles O6: a word that decodes is its instruction's encoding, but for the low nibble that the mask 0xF000 leaves
out; no entry matches the others. -/
theorem specWordsDecode : Obligations.SpecWordsDecode := by
  refine ⟨?cls, ?ret, ?jmp, ?call, ?se, ?sne, ?lowNibbleIgnored, ?lowNibbleMatched, ?ld, ?nearRet, ?noDigit⟩
  case cls => exact decodeWord_encode _ .cls
  case ret => exact decodeWord_encode _ .ret
  case jmp => exact decodeWord_encode _ (.jmpAddr 0x0E0)
  case call => exact decodeWord_encode _ (.callAddr 0xABC)
  case se => exact decodeWord_encode _ (.seVxByte 10 0x5F)
  case sne => exact decodeWord_encode _ (.sneVxByte 15 0x00)
  case lowNibbleIgnored => exact decodeWord_seVxVy_of_clearLow (by decide)
  case ld => exact decodeWord_encode _ (.ldVxByte 11 0x07)
  all_goals exact decodeWord_eq_none_of_unmatched (by decide)

/-- Settles O47: the slots by `State.reset_slot`, the rest stands in `State.reset`. -/
theorem resetStateByDecision : Obligations.ResetStateByDecision :=
  ⟨rfl, State.reset_slot, rfl, rfl⟩

/-- Settles O49: no entry matches the word 0x0000 that the empty memory holds at 0x200, and the error keeps the fetch's
advance. -/
theorem resetWithoutProgramRaisesDecode : Obligations.ResetWithoutProgramRaisesDecode := by
  have hpc : State.reset.pc.toNat ≤ 0xFFE := by decide
  obtain ⟨after, hstep⟩ := unmatchedWordRaisesDecode State.reset hpc (by decide)
  have hafter : after = { State.reset with pc := State.reset.pc + 2 } :=
    (stepErrorKeepsOnlyFetchAdvance State.reset _ hstep).2 hpc
  rw [hafter] at hstep
  exact hstep

end Sys2Proof.Machine
end
